-- ==== Sys2Proof/Word.lean ====
section
/-! DEFINITION. The word and byte types (00_scope.md R11, R13): registers, addresses and immediates are
16 bits wide, memory cells 8. Their arithmetic is that of `BitVec`: `a + b` and `a - b` wrap modulo 2^16,
which is the `+16` and `-16` of R13. -/

namespace Sys2Proof

/-- A u16: a register, an address, a literal, the counter (R11, R13). -/
abbrev Word := BitVec 16

/-- A u8: one cell of memory, one byte of an instruction (R13). -/
abbrev Byte := BitVec 8

end Sys2Proof
end

