-- ==== Sys2Proof/Machine/Flags.lean ====
section
/-! DEFINITION. The ISA has no status flags, condition codes or predicates, and nothing records a carry
(10_state.md R35). What stands here is what takes their place: the wrapping sum of ADD_REG_REG and the
one condition an instruction tests. -/

namespace Sys2Proof.Machine

/-- `v1 +16 v2`: the sum modulo 2^16, its carry dropped (42_arithmetic.md R150, R151). -/
def addWrap (v1 v2 : Word) : Word := v1 + v2

/-- The condition of JMP_NOT_EQ: the literal differs from `acc` as a 16-bit number (43_branch.md R160). -/
def notEqual (value acc : Word) : Bool := value != acc

end Sys2Proof.Machine
end

