-- ==== Sys2Proof/Config.lean ====
section
/-! DEFINITION. The parameters a model takes (00_scope.md R9, R10, R12): the memory length MEM_SIZE and the
byte value of each of the twelve opcodes, OPCODE_MAP. Both are fixed at construction (10_state.md R37).
The spec leaves no value of a running instruction open, so this file declares no free value. -/

namespace Sys2Proof

/-- OPCODE_MAP (R12): one byte for each of the twelve instructions, under the parameter names OPC_*. -/
structure OpcodeMap where
  movLitReg : Byte
  movRegReg : Byte
  movRegMem : Byte
  movMemReg : Byte
  addRegReg : Byte
  jmpNotEq  : Byte
  pshLit    : Byte
  pshReg    : Byte
  pop       : Byte
  calLit    : Byte
  calReg    : Byte
  ret       : Byte
  deriving DecidableEq, Repr

/-- The twelve assigned opcode bytes, in the order of the source's table (R4). -/
def OpcodeMap.bytes (m : OpcodeMap) : List Byte :=
  [m.movLitReg, m.movRegReg, m.movRegMem, m.movMemReg, m.addRegReg, m.jmpNotEq,
   m.pshLit, m.pshReg, m.pop, m.calLit, m.calReg, m.ret]

/-- The construction parameters (R9). -/
structure Config where
  /-- MEM_SIZE, the memory length in bytes (R10). -/
  memSize   : Nat
  /-- OPCODE_MAP (R12). -/
  opcodeMap : OpcodeMap
  deriving DecidableEq, Repr

end Sys2Proof
end

