-- ==== Sys2Proof/Syntax.lean ====
section
/-! DEFINITION. The instruction set as syntax (00_scope.md R4, 30_encoding.md R70 to R76): the twelve
registers, the twelve operations, and one constructor of `Instr` per row of the opcode table. -/

namespace Sys2Proof

/-- The closed enumeration of the twelve registers, in slot order (10_state.md R20, R24). -/
inductive Reg where
  | ip | acc | r1 | r2 | r3 | r4 | r5 | r6 | r7 | r8 | sp | fp
  deriving DecidableEq, Repr

/-- The twelve operations an opcode byte can select (R4, R78). -/
inductive Op where
  | movLitReg | movRegReg | movRegMem | movMemReg | addRegReg | jmpNotEq
  | pshLit | pshReg | pop | calLit | calReg | ret
  deriving DecidableEq, Repr

/-- A decoded instruction, its operands in encoding order (R72). A register selector byte has become a
register (R74); the raw ordinals of ADD_REG_REG stay bytes (R75). -/
inductive Instr where
  /-- MOV_LIT_REG (R130). -/
  | movLitReg (literal : Word) (dst : Reg)
  /-- MOV_REG_REG (R131). -/
  | movRegReg (src : Reg) (dst : Reg)
  /-- MOV_REG_MEM (R132). -/
  | movRegMem (src : Reg) (address : Word)
  /-- MOV_MEM_REG (R133). -/
  | movMemReg (address : Word) (dst : Reg)
  /-- ADD_REG_REG (R150). -/
  | addRegReg (ord1 : Byte) (ord2 : Byte)
  /-- JMP_NOT_EQ (R160). -/
  | jmpNotEq (value : Word) (address : Word)
  /-- PSH_LIT (R173). -/
  | pshLit (value : Word)
  /-- PSH_REG (R174). -/
  | pshReg (src : Reg)
  /-- POP (R175). -/
  | pop (dst : Reg)
  /-- CAL_LIT (R192). -/
  | calLit (address : Word)
  /-- CAL_REG (R193). -/
  | calReg (src : Reg)
  /-- RET (R194). -/
  | ret
  /-- UNASSIGNED: any opcode byte outside OPCODE_MAP, kept as it stands (R84, R112). -/
  | unassigned (opcode : Byte)
  deriving DecidableEq, Repr

/-- The length in bytes of each instruction (R76). -/
def Instr.length : Instr → Nat
  | .movLitReg _ _ => 4
  | .movRegReg _ _ => 3
  | .movRegMem _ _ => 4
  | .movMemReg _ _ => 4
  | .addRegReg _ _ => 3
  | .jmpNotEq _ _  => 5
  | .pshLit _      => 3
  | .pshReg _      => 2
  | .pop _         => 2
  | .calLit _      => 3
  | .calReg _      => 2
  | .ret           => 1
  | .unassigned _  => 1

end Sys2Proof
end

