-- ==== Sys2Proof/WellFormed.lean ====
section
/-! DEFINITION. The checks on parameters and on instructions: MEM_SIZE's range and the distinctness of
the opcode bytes (00_scope.md R9, R12), and what an UNASSIGNED byte may be (30_encoding.md R84). -/

namespace Sys2Proof

/-- OPCODE_MAP gives twelve distinct bytes (R12). -/
abbrev OpcodeMap.wf (m : OpcodeMap) : Prop := m.bytes.Nodup

/-- The constraints of R9: `2 <= MEM_SIZE <= 65536`, and a well-formed opcode map. -/
abbrev Config.wf (c : Config) : Prop :=
  2 ≤ c.memSize ∧ c.memSize ≤ 65536 ∧ c.opcodeMap.wf

/-- An instruction is well-formed under an opcode map when its UNASSIGNED byte, if it is one, is assigned
to nothing (R84). Every other operand value is legal (R80). -/
def Instr.wf (m : OpcodeMap) : Instr → Bool
  | .movLitReg _ _ => true
  | .movRegReg _ _ => true
  | .movRegMem _ _ => true
  | .movMemReg _ _ => true
  | .addRegReg _ _ => true
  | .jmpNotEq _ _  => true
  | .pshLit _      => true
  | .pshReg _      => true
  | .pop _         => true
  | .calLit _      => true
  | .calReg _      => true
  | .ret           => true
  | .unassigned b  => !m.bytes.contains b

end Sys2Proof
end

