-- ==== Sys2Proof/Decode.lean ====
section
/-! DEFINITION. The instruction_decoder (30_encoding.md): byte order, the register ordinals, the opcode
map and its default, the operand plan of each operation (R72), the decoder over a list of bytes, the
encoder, and the decoder's answer on a word numbered as spec/opcode_table.json numbers it.

The operand plan is written once. The decoder below runs it over a list of bytes; the step runs the same
plan over the instruction stream (Machine/Execute.lean). -/

namespace Sys2Proof

/-! ## Byte order (R57, R73) -/

/-- `v[15:8]`. -/
def hiByte (v : Word) : Byte := v.extractLsb' 8 8

/-- `v[7:0]`. -/
def loByte (v : Word) : Byte := v.extractLsb' 0 8

/-- `hi ++ lo`, the first byte being the most significant (R73). -/
def joinBytes (hi lo : Byte) : Word := hi ++ lo

/-! ## Registers and their ordinals (10_state.md R20) -/

/-- The registers in slot order (R20). -/
def Reg.all : List Reg := [.ip, .acc, .r1, .r2, .r3, .r4, .r5, .r6, .r7, .r8, .sp, .fp]

/-- The ordinal, or slot index, of a register (R20). -/
def Reg.ordinal : Reg → Nat
  | .ip => 0
  | .acc => 1
  | .r1 => 2
  | .r2 => 3
  | .r3 => 4
  | .r4 => 5
  | .r5 => 6
  | .r6 => 7
  | .r7 => 8
  | .r8 => 9
  | .sp => 10
  | .fp => 11

/-- The byte offset of a register in the 24-byte buffer (R21). -/
def Reg.offset (r : Reg) : Nat := 2 * r.ordinal

/-- The register with a given ordinal, if there is one. -/
def Reg.ofOrdinal : Nat → Option Reg
  | 0 => some .ip
  | 1 => some .acc
  | 2 => some .r1
  | 3 => some .r2
  | 4 => some .r3
  | 5 => some .r4
  | 6 => some .r5
  | 7 => some .r6
  | 8 => some .r7
  | 9 => some .r8
  | 10 => some .sp
  | 11 => some .fp
  | _ => none

/-- The register a selector byte selects: ordinal `b mod 12` (R74). -/
def selectReg (b : Byte) : Reg :=
  match b.toNat % 12 with
  | 0 => .ip
  | 1 => .acc
  | 2 => .r1
  | 3 => .r2
  | 4 => .r3
  | 5 => .r4
  | 6 => .r5
  | 7 => .r6
  | 8 => .r7
  | 9 => .r8
  | 10 => .sp
  | _ => .fp

/-- The canonical selector byte of a register: its ordinal (R81). -/
def Reg.selector (r : Reg) : Byte := BitVec.ofNat 8 r.ordinal

/-! ## The opcode map (R78, R79) -/

/-- The default OPCODE_MAP (R12; PRESUMED, log entry 5: the spec itself takes it from general knowledge). -/
def OpcodeMap.default : OpcodeMap where
  movLitReg := 0x10
  movRegReg := 0x11
  movRegMem := 0x12
  movMemReg := 0x13
  addRegReg := 0x14
  jmpNotEq  := 0x15
  pshLit    := 0x17
  pshReg    := 0x18
  pop       := 0x1A
  calLit    := 0x5E
  calReg    := 0x5F
  ret       := 0x60

/-- The byte an opcode map gives an operation. -/
def OpcodeMap.byteOf (m : OpcodeMap) : Op → Byte
  | .movLitReg => m.movLitReg
  | .movRegReg => m.movRegReg
  | .movRegMem => m.movRegMem
  | .movMemReg => m.movMemReg
  | .addRegReg => m.addRegReg
  | .jmpNotEq  => m.jmpNotEq
  | .pshLit    => m.pshLit
  | .pshReg    => m.pshReg
  | .pop       => m.pop
  | .calLit    => m.calLit
  | .calReg    => m.calReg
  | .ret       => m.ret

/-- The twelve operations in the order of the source's table (R4). -/
def Op.all : List Op :=
  [.movLitReg, .movRegReg, .movRegMem, .movMemReg, .addRegReg, .jmpNotEq,
   .pshLit, .pshReg, .pop, .calLit, .calReg, .ret]

/-- The operation whose byte equals the whole opcode byte, or none: then the byte is unassigned (R79). -/
def OpcodeMap.lookup (m : OpcodeMap) (op : Byte) : Option Op :=
  Op.all.find? fun o => m.byteOf o == op

/-! ## Operand plans (R71, R72) -/

/-- What remains to be read of an instruction: one operand field of one of the three kinds of R71, and
what follows from its value; or nothing more, and the instruction. -/
inductive Plan where
  /-- All operands are read. -/
  | done (i : Instr)
  /-- A register selector byte (R74). -/
  | reg (k : Reg → Plan)
  /-- A raw ordinal byte (R75). -/
  | ord (k : Byte → Plan)
  /-- A 16-bit immediate (R73). -/
  | imm16 (k : Word → Plan)

/-- The operand fields of each operation, in encoding order (R72, R115). -/
def operandPlan : Op → Plan
  | .movLitReg => .imm16 fun literal => .reg fun dst => .done (.movLitReg literal dst)
  | .movRegReg => .reg fun src => .reg fun dst => .done (.movRegReg src dst)
  | .movRegMem => .reg fun src => .imm16 fun address => .done (.movRegMem src address)
  | .movMemReg => .imm16 fun address => .reg fun dst => .done (.movMemReg address dst)
  | .addRegReg => .ord fun ord1 => .ord fun ord2 => .done (.addRegReg ord1 ord2)
  | .jmpNotEq  => .imm16 fun value => .imm16 fun address => .done (.jmpNotEq value address)
  | .pshLit    => .imm16 fun value => .done (.pshLit value)
  | .pshReg    => .reg fun src => .done (.pshReg src)
  | .pop       => .reg fun dst => .done (.pop dst)
  | .calLit    => .imm16 fun address => .done (.calLit address)
  | .calReg    => .reg fun src => .done (.calReg src)
  | .ret       => .done .ret

/-- The plan an opcode byte starts: its operation's, or the one-byte no-op (R84, R107). -/
def planFor (m : OpcodeMap) (op : Byte) : Plan :=
  match m.lookup op with
  | some o => operandPlan o
  | none => .done (.unassigned op)

/-! ## The decoder over bytes -/

/-- Why a list of bytes does not decode. Every sequence that is long enough does (R80). -/
inductive DecodeError where
  /-- There is no opcode byte. -/
  | noOpcode
  /-- The bytes end before the operands of this opcode byte do. -/
  | truncated (opcode : Byte)
  deriving DecidableEq, Repr

/-- Run a plan over a list of bytes; `op` names the opcode in a rejection. -/
def Plan.onBytes (op : Byte) : Plan → List Byte → Except DecodeError (Instr × List Byte)
  | .done i, bs => .ok (i, bs)
  | .reg k, bs =>
    match bs with
    | b :: rest => (k (selectReg b)).onBytes op rest
    | [] => .error (.truncated op)
  | .ord k, bs =>
    match bs with
    | b :: rest => (k b).onBytes op rest
    | [] => .error (.truncated op)
  | .imm16 k, bs =>
    match bs with
    | hi :: lo :: rest => (k (joinBytes hi lo)).onBytes op rest
    | _ => .error (.truncated op)

/-- The decoder: the first instruction of a list of bytes and the bytes after it, or the reason there is
none (R70, R79, R80). -/
def decode (m : OpcodeMap) : List Byte → Except DecodeError (Instr × List Byte)
  | [] => .error .noOpcode
  | op :: rest => (planFor m op).onBytes op rest

/-! ## The encoder -/

/-- The bytes of an instruction, registers by their canonical selectors (R72, R81). -/
def encode (m : OpcodeMap) : Instr → List Byte
  | .movLitReg literal dst => [m.movLitReg, hiByte literal, loByte literal, dst.selector]
  | .movRegReg src dst => [m.movRegReg, src.selector, dst.selector]
  | .movRegMem src address => [m.movRegMem, src.selector, hiByte address, loByte address]
  | .movMemReg address dst => [m.movMemReg, hiByte address, loByte address, dst.selector]
  | .addRegReg ord1 ord2 => [m.addRegReg, ord1, ord2]
  | .jmpNotEq value address =>
    [m.jmpNotEq, hiByte value, loByte value, hiByte address, loByte address]
  | .pshLit value => [m.pshLit, hiByte value, loByte value]
  | .pshReg src => [m.pshReg, src.selector]
  | .pop dst => [m.pop, dst.selector]
  | .calLit address => [m.calLit, hiByte address, loByte address]
  | .calReg src => [m.calReg, src.selector]
  | .ret => [m.ret]
  | .unassigned b => [b]

/-! ## Words numbered as the opcode table numbers them -/

/-- The five bytes, five being the longest instruction (R77), of a word whose bits 7..0 are the first byte,
15..8 the second, and so on; every bit from `nbits` up is 0. -/
def tableBytes (nbits w : Nat) : List Byte :=
  [0, 1, 2, 3, 4].map fun k => if 8 * k < nbits then BitVec.ofNat 8 (w >>> (8 * k)) else 0

/-- The instruction the decoder reads from such a word, under the default OPCODE_MAP. -/
def decodeTableWord (nbits w : Nat) : Option Instr :=
  match decode OpcodeMap.default (tableBytes nbits w) with
  | .ok (i, _) => some i
  | .error _ => none

end Sys2Proof
end

