-- ==== Sys2Proof/Machine/State.lean ====
section
/-! DEFINITION. The state of the core (10_state.md) as plain data, the ways a step can stop, and the
state after construction (70_reset_and_hazards.md R252). -/

namespace Sys2Proof.Machine

/-- The register file: twelve 16-bit registers in slot order (R20). R22 allows the 24-byte buffer to be
held as twelve words; `RegFile.buffer` (Ops.lean) is the byte view. -/
structure RegFile where
  ip  : Word
  acc : Word
  r1  : Word
  r2  : Word
  r3  : Word
  r4  : Word
  r5  : Word
  r6  : Word
  r7  : Word
  r8  : Word
  sp  : Word
  fp  : Word
  deriving DecidableEq, Repr

/-- Memory (R34): the bytes that are not zero, by rising address. An unlisted byte reads 0 (log entry 6).
`Memory.wf` (Ops.lean) is the canonical form. -/
abbrev Memory := List Host.Cell

/-- The step state between steps (R31). -/
inductive EngineState where
  /-- READY: ready to fetch the next opcode at `ip`. -/
  | ready
  /-- FAULTED: a fault has happened; only construction leaves this state. -/
  | faulted
  deriving DecidableEq, Repr

/-- The fault record (R33), with the numeric codes the host reads. -/
structure FaultRecord where
  /-- 0 = none, 1 = InvalidAddress, 2 = UnknownRegister. -/
  cause     : BitVec 2
  /-- InvalidAddress: 0 = instruction fetch, 1 = data read, 2 = data write; 0 otherwise. -/
  kind      : BitVec 2
  /-- InvalidAddress: the first address of the access. UnknownRegister: the raw ordinal. -/
  addr      : Word
  /-- InvalidAddress: the access width in bytes; 0 otherwise. -/
  width     : BitVec 2
  /-- The value `ip` held at the start of the faulting step. -/
  instrAddr : Word
  deriving DecidableEq, Repr

/-- The fault record in READY: all zero (R33). -/
def FaultRecord.zero : FaultRecord where
  cause := 0
  kind := 0
  addr := 0
  width := 0
  instrAddr := 0

/-- The state of the machine. Between steps `instrStart` is 0 (`Invariant`, Safety.lean). -/
structure State where
  /-- MEM_SIZE and OPCODE_MAP, fixed at construction; no step writes it (log entry 1). -/
  cfg        : Config
  /-- The register file (R20). -/
  regs       : RegFile
  /-- `cnt`, the stack_frame_size counter (R28, R29). -/
  cnt        : Word
  /-- The memory (R34). -/
  mem        : Memory
  /-- READY or FAULTED (R31). -/
  engine     : EngineState
  /-- The fault record (R33). -/
  fault      : FaultRecord
  /-- `start` of 40_fetch_decode.md R106 while a step runs, and 0 between steps (log entry 3). -/
  instrStart : Word
  deriving DecidableEq, Repr

/-- The outcome `fault` of a step. -/
inductive Fault where
  /-- Raised by `step` and `executeOpcode` in state FAULTED: nothing is read or written, and the fault
  record comes back unchanged (R111, R113). Safe: no state follows. The step that raises a fault is not
  this outcome; it answers the next state that R222 describes (log entry 4). -/
  | engineFaulted (record : FaultRecord)
  deriving DecidableEq, Repr

/-- The outcome `refused`. -/
inductive Refusal where
  /-- An instruction with no meaning yet. No arm of `exec` raises it. Safe. -/
  | notModelled (mnemonic : String)
  /-- Raised by `construct`: the image has fewer than 2 or more than 65536 bytes (R251). Safe. -/
  | imageSize (length : Nat)
  /-- Raised by `construct`: the opcode bytes are not distinct (R12). Safe. -/
  | opcodeClash
  /-- Raised by the host's ReadMem and WriteMem at an address of MEM_SIZE or more (R117). Safe. -/
  | hostAddress (address : Nat)
  deriving DecidableEq, Repr

/-- The registers after construction: `sp` and `fp` at MEM_SIZE - 2, the rest 0 (R252). -/
def RegFile.initial (memSize : Nat) : RegFile where
  ip := 0
  acc := 0
  r1 := 0
  r2 := 0
  r3 := 0
  r4 := 0
  r5 := 0
  r6 := 0
  r7 := 0
  r8 := 0
  sp := BitVec.ofNat 16 (memSize - 2)
  fp := BitVec.ofNat 16 (memSize - 2)

/-- The state after construction from parameters and a memory (R252). -/
def State.initial (cfg : Config) (mem : Memory) : State where
  cfg := cfg
  regs := RegFile.initial cfg.memSize
  cnt := 0
  mem := mem
  engine := .ready
  fault := FaultRecord.zero
  instrStart := 0

/-- The parameters of `State.reset`: MEM_SIZE = 65536, the spec's value where nothing else is said (R10),
and the default OPCODE_MAP (R12). DESIGN CHOICE, log entry 2. -/
def defaultConfig : Config where
  memSize := 65536
  opcodeMap := OpcodeMap.default

/-- The machine right after construction with the default parameters and the zero-filled image (R252, R69). -/
def State.reset : State := State.initial defaultConfig []

end Sys2Proof.Machine
end

