-- ==== Sys2Proof/Machine/Ops.lean ====
section
/-! DEFINITION. The named operations over memory and registers (10_state.md, 20_memory.md), the result
type that carries the partial effects of a fault, and taking a fault, once, for every instruction
(60_exceptions.md R222, R223). There is no return from a fault: R226 leaves only construction
(`construct`, Commands.lean). -/

namespace Sys2Proof.Machine

/-! ## Memory cells -/

/-- The byte at an address; an unlisted address reads 0 (R69). -/
def Memory.read : Memory → Nat → Byte
  | [], _ => 0
  | (k, b) :: rest, a => if k = a then b else Memory.read rest a

/-- Store one byte, keeping the canonical form: addresses rise, and no byte listed is 0. -/
def Memory.write : Memory → Nat → Byte → Memory
  | [], a, v => if v = 0 then [] else [(a, v)]
  | (k, b) :: rest, a, v =>
    if a < k then
      if v = 0 then (k, b) :: rest else (a, v) :: (k, b) :: rest
    else if a = k then
      if v = 0 then rest else (a, v) :: rest
    else (k, b) :: Memory.write rest a v

/-- The canonical form of a memory of `size` bytes. -/
abbrev Memory.wf (size : Nat) (m : Memory) : Prop :=
  m.Pairwise (fun c d => c.1 < d.1) ∧ ∀ c ∈ m, c.2 ≠ 0 ∧ c.1 < size

/-- `mem[a] ++ mem[a+1]` (R54). -/
def Memory.readWord (m : Memory) (a : Nat) : Word := joinBytes (m.read a) (m.read (a + 1))

/-- `mem[a] <- v[15:8]`, then `mem[a+1] <- v[7:0]` (R54). -/
def Memory.writeWord (m : Memory) (a : Nat) (v : Word) : Memory :=
  (m.write a (hiByte v)).write (a + 1) (loByte v)

/-- The memory that holds a list of bytes from an address up, and zeros elsewhere (R69, R251). -/
def Memory.ofBytes : Nat → List Byte → Memory
  | _, [] => []
  | a, b :: rest => if b = 0 then Memory.ofBytes (a + 1) rest else (a, b) :: Memory.ofBytes (a + 1) rest

/-- Store a list of bytes from an address up, those below `size` only. -/
def Memory.writeBytes (size : Nat) : Memory → Nat → List Byte → Memory
  | m, _, [] => m
  | m, a, b :: rest =>
    Memory.writeBytes size (if a < size then m.write a b else m) (a + 1) rest

/-! ## The register file -/

/-- `x[r]` (00_scope.md R14). -/
def RegFile.read (f : RegFile) : Reg → Word
  | .ip => f.ip
  | .acc => f.acc
  | .r1 => f.r1
  | .r2 => f.r2
  | .r3 => f.r3
  | .r4 => f.r4
  | .r5 => f.r5
  | .r6 => f.r6
  | .r7 => f.r7
  | .r8 => f.r8
  | .sp => f.sp
  | .fp => f.fp

/-- `x[r] <- v`. No register is hardwired (R25). -/
def RegFile.write (f : RegFile) (r : Reg) (v : Word) : RegFile :=
  match r with
  | .ip => { f with ip := v }
  | .acc => { f with acc := v }
  | .r1 => { f with r1 := v }
  | .r2 => { f with r2 := v }
  | .r3 => { f with r3 := v }
  | .r4 => { f with r4 := v }
  | .r5 => { f with r5 := v }
  | .r6 => { f with r6 := v }
  | .r7 => { f with r7 := v }
  | .r8 => { f with r8 := v }
  | .sp => { f with sp := v }
  | .fp => { f with fp := v }

/-- The 24-byte register buffer: two bytes per register, big-endian, in slot order (R21). -/
def RegFile.buffer (f : RegFile) : List Byte :=
  Reg.all.flatMap fun r => [hiByte (f.read r), loByte (f.read r)]

/-- `x[r]` in a state. -/
def State.reg (s : State) (r : Reg) : Word := s.regs.read r

/-- `x[r] <- v` in a state. -/
def State.setReg (s : State) (r : Reg) (v : Word) : State := { s with regs := s.regs.write r v }

/-- `cnt <- v` (R28). -/
def State.setCnt (s : State) (v : Word) : State := { s with cnt := v }

/-- Replace the memory. -/
def State.setMem (s : State) (m : Memory) : State := { s with mem := m }

/-- Latch the start address of a step (40_fetch_decode.md R106). -/
def State.setStart (s : State) (v : Word) : State := { s with instrStart := v }

/-! ## Faults -/

/-- The kind of a memory access, with its code in the fault record (R33, R55). -/
inductive AccessKind where
  | fetch | read | write
  deriving DecidableEq, Repr

/-- The code of an access kind: fetch 0, read 1, write 2 (R33). -/
def AccessKind.code : AccessKind → BitVec 2
  | .fetch => 0
  | .read => 1
  | .write => 2

/-- What a micro-operation raises (R221). -/
inductive FaultInfo where
  /-- InvalidAddress(a, n, kind). -/
  | invalidAddress (addr : Word) (width : Nat) (kind : AccessKind)
  /-- UnknownRegister(n). -/
  | unknownRegister (ordinal : Byte)
  deriving DecidableEq, Repr

/-- The fault record of a fault raised in a step that started at `start` (R33, R221, R223). -/
def FaultInfo.record (start : Word) : FaultInfo → FaultRecord
  | .invalidAddress a n k =>
    { cause := 1, kind := k.code, addr := a, width := BitVec.ofNat 2 n, instrAddr := start }
  | .unknownRegister n =>
    { cause := 2, kind := 0, addr := n.setWidth 16, width := 0, instrAddr := start }

/-- Taking a fault: the state becomes FAULTED and the fault record is filled in. Nothing else changes, so
every earlier effect of the step stays (R222, R223). -/
def State.takeFault (s : State) (f : FaultInfo) : State :=
  { s with engine := .faulted, fault := f.record s.instrStart }

/-- The result of a micro-operation, or of several in order: a value and the state after them, or the state
a fault left (R222). -/
inductive Res (α : Type) where
  | ok (a : α) (s : State)
  | faulted (s : State)

/-- The next micro-operations run only if the earlier ones did not fault (R222). -/
def Res.bind {α β : Type} (r : Res α) (k : α → State → Res β) : Res β :=
  match r with
  | .ok a s => k a s
  | .faulted s => .faulted s

/-- A result with no value, as the outcome of an instruction: either way a next state (log entry 4). -/
def Res.toOutcome : Res Unit → Host.Outcome State Fault Refusal
  | .ok _ s => .next s
  | .faulted s => .next s

/-- `raise f` (00_scope.md R16). -/
def raise {α : Type} (f : FaultInfo) (s : State) : Res α := .faulted (s.takeFault f)

/-! ## The memory port (40_fetch_decode.md R118) -/

/-- An access of `n` bytes at `a` is in bounds: `a + n <= MEM_SIZE` as plain integers (R55). -/
abbrev State.inBounds (s : State) (a : Word) (n : Nat) : Prop := a.toNat + n ≤ s.cfg.memSize

/-- read8, used only by the instruction stream (R53). -/
def read8 (a : Word) (s : State) : Res Byte :=
  if s.inBounds a 1 then .ok (s.mem.read a.toNat) s else raise (.invalidAddress a 1 .fetch) s

/-- read16: the word at `a`, for the instruction stream or for data (R54, R55). -/
def read16 (kind : AccessKind) (a : Word) (s : State) : Res Word :=
  if s.inBounds a 2 then .ok (s.mem.readWord a.toNat) s else raise (.invalidAddress a 2 kind) s

/-- write16: store the word `v` at `a` (R54, R55). -/
def write16 (a v : Word) (s : State) : Res Unit :=
  if s.inBounds a 2 then .ok () (s.setMem (s.mem.writeWord a.toNat v))
  else raise (.invalidAddress a 2 .write) s

end Sys2Proof.Machine
end

