-- ==== Sys2Proof/Machine/Operands.lean ====
section
/-! DEFINITION. The three kinds of operand field (30_encoding.md R71) as the instruction stream reads them
(40_fetch_decode.md R102 to R105), and the register access of a raw ordinal (42_arithmetic.md R150).
A register that a selector byte names is read with `State.reg` and written with `State.setReg`; both happen
after every operand byte has been fetched (R109). -/

namespace Sys2Proof.Machine

/-- `fetch()`: the byte at `ip`; then `ip` moves up by 1, modulo 2^16 (R101, R102). -/
def fetch (s : State) : Res Byte :=
  (read8 (s.reg .ip) s).bind fun b t => .ok b (t.setReg .ip (t.reg .ip + 1))

/-- `fetch16()`: the word at `ip`, one access; then `ip` moves up by 2 (R103). -/
def fetch16 (s : State) : Res Word :=
  (read16 .fetch (s.reg .ip) s).bind fun v t => .ok v (t.setReg .ip (t.reg .ip + 2))

/-- `fetch_register_index()`: one byte, reduced modulo 12 (R104). -/
def fetchRegisterIndex (s : State) : Res Reg :=
  (fetch s).bind fun b t => .ok (selectReg b) t

/-- The raw ordinal read: one byte, kept as it stands (R105). -/
def fetchOrdinal (s : State) : Res Byte := fetch s

/-- The register of a raw ordinal, or UnknownRegister for 12 and above (R75, R150). -/
def readOrdinal (n : Byte) (s : State) : Res Word :=
  match Reg.ofOrdinal n.toNat with
  | some r => .ok (s.reg r) s
  | none => raise (.unknownRegister n) s

end Sys2Proof.Machine
end

