-- ==== Sys2Proof/Machine/Arithmetic.lean ====
section
/-! DEFINITION. The one arithmetic instruction (42_arithmetic.md R150). -/

namespace Sys2Proof.Machine

/-- ADD_REG_REG: `acc` becomes the wrapping sum of the registers of two raw ordinals, the first checked and
read before the second is checked (R150, R115). -/
def execAddRegReg (ord1 ord2 : Byte) (s : State) : Host.Outcome State Fault Refusal :=
  ((readOrdinal ord1 s).bind fun v1 t =>
    (readOrdinal ord2 t).bind fun v2 u =>
      .ok () (u.setReg .acc (addWrap v1 v2))).toOutcome

end Sys2Proof.Machine
end

