-- ==== Sys2Proof/Machine/Branch.lean ====
section
/-! DEFINITION. The one branch (43_branch.md R160). -/

namespace Sys2Proof.Machine

/-- JMP_NOT_EQ: `ip <- address` if `value` differs from `acc`; else `ip` stays just after the instruction.
The target is not checked (R160, R101). -/
def execJmpNotEq (value address : Word) (s : State) : Host.Outcome State Fault Refusal :=
  .next (if notEqual value (s.reg .acc) then s.setReg .ip address else s)

end Sys2Proof.Machine
end

