-- ==== Sys2Proof/Machine/StackFrame.lean ====
section
/-! DEFINITION. The stack_frame_manager: push and pop (44_stack.md R170, R171) and the frame protocol,
push_state and pop_state (45_call_return.md R190, R191). -/

namespace Sys2Proof.Machine

/-- `push(v)`: write at `sp`, then `sp` down by 2 and `cnt` up by 2. If the write faults, neither changes
(R170). -/
def push (v : Word) (s : State) : Res Unit :=
  (write16 (s.reg .sp) v s).bind fun _ t =>
    .ok () ((t.setReg .sp (t.reg .sp - 2)).setCnt (t.cnt + 2))

/-- `pop()`: `sp` up by 2 and `cnt` down by 2, then read at the new `sp`. If the read faults, both have
changed already (R171). -/
def pop (s : State) : Res Word :=
  read16 .read (s.reg .sp + 2) ((s.setReg .sp (s.reg .sp + 2)).setCnt (s.cnt - 2))

/-- Push registers in order, each read when its turn comes. -/
def pushRegs : List Reg → State → Res Unit
  | [], s => .ok () s
  | r :: rest, s => (push (s.reg r) s).bind fun _ t => pushRegs rest t

/-- Pop into registers in order, each written as soon as it is popped. -/
def popRegs : List Reg → State → Res Unit
  | [], s => .ok () s
  | r :: rest, s => (pop s).bind fun v t => popRegs rest (t.setReg r v)

/-- Pop and drop a number of words (R191). -/
def dropWords : Nat → State → Res Unit
  | 0, s => .ok () s
  | n + 1, s => (pop s).bind fun _ t => dropWords n t

/-- The registers push_state saves, in push order (R190). -/
def savedRegs : List Reg := [.r1, .r2, .r3, .r4, .r5, .r6, .r7, .r8, .ip]

/-- The registers pop_state restores, in pop order (R191). -/
def restoredRegs : List Reg := [.ip, .r8, .r7, .r6, .r5, .r4, .r3, .r2, .r1]

/-- `push_state()`: the nine registers, then the frame-size word `cnt +16 2`; then `fp <- sp` and
`cnt <- 0` (R190; 90_conflicts.md C2). -/
def pushState (s : State) : Res Unit :=
  (pushRegs savedRegs s).bind fun _ t =>
    (push (t.cnt + 2) t).bind fun _ u =>
      .ok () ((u.setReg .fp (u.reg .sp)).setCnt 0)

/-- `pop_state()`: from `fp`, pop the frame-size word into `cnt`, the nine registers, and `n_args` with
that many words dropped; then `fp <- base +16 W` (R191; 90_conflicts.md C3, C8). -/
def popState (s : State) : Res Unit :=
  (pop (s.setReg .sp (s.reg .fp))).bind fun w t =>
    (popRegs restoredRegs (t.setCnt w)).bind fun _ u =>
      (pop u).bind fun nArgs v =>
        (dropWords nArgs.toNat v).bind fun _ x =>
          .ok () (x.setReg .fp (s.reg .fp + w))

end Sys2Proof.Machine
end

