-- ==== Sys2Proof/Machine/CallReturn.lean ====
section
/-! DEFINITION. Calls and return (45_call_return.md R192 to R194). -/

namespace Sys2Proof.Machine

/-- CAL_LIT: save the frame, then jump to a literal address (R192). -/
def execCalLit (address : Word) (s : State) : Host.Outcome State Fault Refusal :=
  ((pushState s).bind fun _ t => .ok () (t.setReg .ip address)).toOutcome

/-- CAL_REG: read the target, save the frame, then jump (R193). -/
def execCalReg (src : Reg) (s : State) : Host.Outcome State Fault Refusal :=
  ((pushState s).bind fun _ t => .ok () (t.setReg .ip (s.reg src))).toOutcome

/-- RET: unwind the frame at `fp` (R194). -/
def execRet (s : State) : Host.Outcome State Fault Refusal := (popState s).toOutcome

end Sys2Proof.Machine
end

