-- ==== Sys2Proof/Machine/DataMovement.lean ====
section
/-! DEFINITION. The four MOV instructions (41_data_movement.md). Each meaning starts after the operand
fetch, so a source `ip` reads the address just after the instruction (40_fetch_decode.md R109). -/

namespace Sys2Proof.Machine

/-- MOV_LIT_REG: `x[dst] <- literal` (R130). -/
def execMovLitReg (literal : Word) (dst : Reg) (s : State) : Host.Outcome State Fault Refusal :=
  .next (s.setReg dst literal)

/-- MOV_REG_REG: `x[dst] <- x[src]` (R131). -/
def execMovRegReg (src dst : Reg) (s : State) : Host.Outcome State Fault Refusal :=
  .next (s.setReg dst (s.reg src))

/-- MOV_REG_MEM: the word at `address` becomes `x[src]` (R132). -/
def execMovRegMem (src : Reg) (address : Word) (s : State) : Host.Outcome State Fault Refusal :=
  (write16 address (s.reg src) s).toOutcome

/-- MOV_MEM_REG: `x[dst]` becomes the word at `address` (R133). -/
def execMovMemReg (address : Word) (dst : Reg) (s : State) : Host.Outcome State Fault Refusal :=
  ((read16 .read address s).bind fun v t => .ok () (t.setReg dst v)).toOutcome

end Sys2Proof.Machine
end

