-- ==== Sys2Proof/Machine/NoOp.lean ====
section
/-! DEFINITION. The no-op of every unassigned opcode byte (40_fetch_decode.md R112). -/

namespace Sys2Proof.Machine

/-- UNASSIGNED: nothing beyond the opcode fetch, whatever the byte (R84, R112). -/
def execUnassigned (_opcode : Byte) (s : State) : Host.Outcome State Fault Refusal := .next s

end Sys2Proof.Machine
end

