-- ==== Sys2Proof/Machine/Stack.lean ====
section
/-! DEFINITION. The stack instructions (44_stack.md R173 to R175). -/

namespace Sys2Proof.Machine

/-- PSH_LIT: push a literal (R173). -/
def execPshLit (value : Word) (s : State) : Host.Outcome State Fault Refusal :=
  (push value s).toOutcome

/-- PSH_REG: push a register, read before `sp` moves (R174). -/
def execPshReg (src : Reg) (s : State) : Host.Outcome State Fault Refusal :=
  (push (s.reg src) s).toOutcome

/-- POP: pop into a register, written after `sp` has moved (R175). -/
def execPop (dst : Reg) (s : State) : Host.Outcome State Fault Refusal :=
  ((pop s).bind fun v t => .ok () (t.setReg dst v)).toOutcome

end Sys2Proof.Machine
end

