-- ==== Sys2Proof/Machine/Dispatch.lean ====
section
/-! DEFINITION. The dispatch of the instruction_decoder (40_fetch_decode.md R107): the EXECUTE phase of a
decoded instruction, its operands fetched and `ip` just after it. The guard of R111 for the state FAULTED
stands in `step` and `executeOpcode`, which are what calls this (log entry 7). -/

namespace Sys2Proof.Machine

def exec (i : Instr) (s : State) : Host.Outcome State Fault Refusal :=
  match i with
  | .movLitReg literal dst => Sys2Proof.Machine.execMovLitReg literal dst s
  | .movRegReg src dst => Sys2Proof.Machine.execMovRegReg src dst s
  | .movRegMem src address => Sys2Proof.Machine.execMovRegMem src address s
  | .movMemReg address dst => Sys2Proof.Machine.execMovMemReg address dst s
  | .addRegReg ord1 ord2 => Sys2Proof.Machine.execAddRegReg ord1 ord2 s
  | .jmpNotEq value address => Sys2Proof.Machine.execJmpNotEq value address s
  | .pshLit value => Sys2Proof.Machine.execPshLit value s
  | .pshReg src => Sys2Proof.Machine.execPshReg src s
  | .pop dst => Sys2Proof.Machine.execPop dst s
  | .calLit address => Sys2Proof.Machine.execCalLit address s
  | .calReg src => Sys2Proof.Machine.execCalReg src s
  | .ret => Sys2Proof.Machine.execRet s
  | .unassigned opcode => Sys2Proof.Machine.execUnassigned opcode s

end Sys2Proof.Machine
end

