-- ==== Sys2Proof/Machine/Execute.lean ====
section
/-! DEFINITION. What a step does around the dispatch (40_fetch_decode.md R106 to R109): latch the start
address, fetch the opcode, run its operand plan over the instruction stream, execute; and the host's
execute(opcode), which leaves the opcode fetch out. -/

namespace Sys2Proof.Machine

/-- Run an operand plan over the instruction stream: each field is one fetch, in order (R109, R115). -/
def runPlan : Plan → State → Res Instr
  | .done i, s => .ok i s
  | .reg k, s => (fetchRegisterIndex s).bind fun r t => runPlan (k r) t
  | .ord k, s => (fetchOrdinal s).bind fun b t => runPlan (k b) t
  | .imm16 k, s => (fetch16 s).bind fun v t => runPlan (k v) t

/-- `execute_body(op)`: fetch the operands of `op`, then run its effect (R107). -/
def executeBody (op : Byte) (s : State) : Host.Outcome State Fault Refusal :=
  match runPlan (planFor s.cfg.opcodeMap op) s with
  | .ok i t => exec i t
  | .faulted t => .next t

/-- Fetch the opcode byte, then its body (R106). -/
def fetchAndExecute (s : State) : Host.Outcome State Fault Refusal :=
  match fetch s with
  | .ok op t => executeBody op t
  | .faulted t => .next t

/-- `start <- ip` (R106, R108). -/
def beginStep (s : State) : State := s.setStart (s.reg .ip)

/-- The step is over: `start` is gone (log entry 3). -/
def endStep : Host.Outcome State Fault Refusal → Host.Outcome State Fault Refusal
  | .next t => .next (t.setStart 0)
  | .fault r => .fault r
  | .refused r => .refused r

/-- `execute(op)`: the body of an opcode the host supplies; in FAULTED, the fault record (R108). -/
def executeOpcode (op : Byte) (s : State) : Host.Outcome State Fault Refusal :=
  match s.engine with
  | .ready => endStep (executeBody op (beginStep s))
  | .faulted => .fault (.engineFaulted s.fault)

/-- Place the bytes of a table word at `ip`, those inside memory, where the next opcode fetch reads. -/
def State.placeWord (s : State) (nbits w : Nat) : State :=
  s.setMem (s.mem.writeBytes s.cfg.memSize (s.reg .ip).toNat (tableBytes nbits w))

end Sys2Proof.Machine
end

