-- ==== Sys2Proof/Machine/Step.lean ====
section
/-! DEFINITION. `step()` (40_fetch_decode.md R106): exactly one fetch plus execute. -/

namespace Sys2Proof.Machine

/-- One step. In READY, one instruction; a fault in it gives the next state of R222. In FAULTED, the fault
record again and nothing else (R111). -/
def step (s : State) : Host.Outcome State Fault Refusal :=
  match s.engine with
  | .ready => endStep (fetchAndExecute (beginStep s))
  | .faulted => .fault (.engineFaulted s.fault)

/-- The state with an instruction, its bits numbered as the opcode table numbers them, stored where the
next step fetches (70_reset_and_hazards.md R254; log entry 10). -/
def State.withFetchWord (s : State) (nbits w : Nat) : State := s.placeWord nbits w

end Sys2Proof.Machine
end

