-- ==== Sys2Proof/Machine/Commands.lean ====
section
/-! DEFINITION. The host command interface (40_fetch_decode.md R116, R117): the only ways the outside acts
on the core, each one indivisible and accepted only between steps. -/

namespace Sys2Proof.Machine

/-- Construct a core from an opcode map and a memory image, whose length is MEM_SIZE (R250 to R252). An
image of another length than 2 to 65536 is refused (R251), and so is a map with two equal bytes (R12). -/
def construct (m : OpcodeMap) (image : List Byte) : Host.Outcome State Fault Refusal :=
  if image.length < 2 ∨ 65536 < image.length then .refused (.imageSize image.length)
  else if m.wf then
    .next (State.initial { memSize := image.length, opcodeMap := m } (Memory.ofBytes 0 image))
  else .refused .opcodeClash

/-- What step() and execute() return: Ok or Fault(record) (R113); or the refusal a model may answer. -/
inductive StepResult where
  | ok
  | fault (record : FaultRecord)
  | refused (r : Refusal)
  deriving DecidableEq, Repr

/-- The value an outcome returns to the caller (R113): a next state that is FAULTED returns its record. -/
def resultOf : Host.Outcome State Fault Refusal → StepResult
  | .next t =>
    match t.engine with
    | .ready => .ok
    | .faulted => .fault t.fault
  | .fault (.engineFaulted r) => .fault r
  | .refused r => .refused r

/-- The state the host finds after an outcome: where there is no next state, nothing has changed (R111). -/
def stateAfter (s : State) : Host.Outcome State Fault Refusal → State
  | .next t => t
  | .fault _ => s
  | .refused _ => s

/-- The commands of R117. -/
inductive Command where
  | construct (m : OpcodeMap) (image : List Byte)
  | step
  | execute (op : Byte)
  | readReg (r : Reg)
  | writeReg (r : Reg) (v : Word)
  | readMem (a : Nat)
  | writeMem (a : Nat) (b : Byte)
  | readCounter
  | readStatus
  deriving DecidableEq, Repr

/-- The replies to the commands (R117). -/
inductive Reply where
  | done
  | result (r : StepResult)
  | word (v : Word)
  | byte (b : Byte)
  | status (engine : EngineState) (record : FaultRecord)
  | refused (r : Refusal)
  deriving DecidableEq, Repr

/-- WriteReg: any register, in either state (R116). -/
def hostWriteReg (r : Reg) (v : Word) (s : State) : Reply × State := (.done, s.setReg r v)

/-- ReadMem at an address below MEM_SIZE; refused elsewhere (R117). -/
def hostReadMem (a : Nat) (s : State) : Reply × State :=
  if a < s.cfg.memSize then (.byte (s.mem.read a), s) else (.refused (.hostAddress a), s)

/-- WriteMem at an address below MEM_SIZE; refused elsewhere, with no change (R117). -/
def hostWriteMem (a : Nat) (b : Byte) (s : State) : Reply × State :=
  if a < s.cfg.memSize then (.done, s.setMem (s.mem.write a b)) else (.refused (.hostAddress a), s)

/-- Construct as a command: the new core takes the place of the old one, or nothing happens (R117, R250). -/
def hostConstruct (m : OpcodeMap) (image : List Byte) (s : State) : Reply × State :=
  match construct m image with
  | .next t => (.done, t)
  | .fault _ => (.done, s)
  | .refused r => (.refused r, s)

/-- One host command between steps: its reply and the state after it (R117). -/
def command (c : Command) (s : State) : Reply × State :=
  match c with
  | .construct m image => hostConstruct m image s
  | .step => (.result (resultOf (step s)), stateAfter s (step s))
  | .execute op => (.result (resultOf (executeOpcode op s)), stateAfter s (executeOpcode op s))
  | .readReg r => (.word (s.reg r), s)
  | .writeReg r v => hostWriteReg r v s
  | .readMem a => hostReadMem a s
  | .writeMem a b => hostWriteMem a b s
  | .readCounter => (.word s.cnt, s)
  | .readStatus => (.status s.engine s.fault, s)

end Sys2Proof.Machine
end

