-- ==== Sys2Proof/Safety.lean ====
section
/-! DEFINITION. What claims may rest on: the invariant of the machine between steps, and the ways a host
ends a run (70_reset_and_hazards.md R258). A faulted state is never a successful end of a run. -/

namespace Sys2Proof.Machine

/-- A fault record that FAULTED may hold: an access that is out of bounds, with its kind and width, or a raw
ordinal of 12 or more (R33, R221). -/
abbrev FaultRecord.legal (memSize : Nat) (r : FaultRecord) : Prop :=
  (r.cause = 1 ∧ memSize < r.addr.toNat + r.width.toNat ∧
    ((r.kind = 0 ∧ (r.width = 1 ∨ r.width = 2)) ∨ ((r.kind = 1 ∨ r.kind = 2) ∧ r.width = 2))) ∨
  (r.cause = 2 ∧ r.kind = 0 ∧ r.width = 0 ∧ 12 ≤ r.addr.toNat ∧ r.addr.toNat < 256)

/-- The invariant of the machine between steps: legal parameters (R9, R12), memory in canonical form and
inside MEM_SIZE, an all-zero fault record in READY and a legal one in FAULTED (R31, R33), no step under way. -/
abbrev Invariant (s : State) : Prop :=
  s.cfg.wf ∧ Memory.wf s.cfg.memSize s.mem ∧
  (s.engine = .ready → s.fault = FaultRecord.zero) ∧
  (s.engine = .faulted → s.fault.legal s.cfg.memSize) ∧
  s.instrStart = 0

/-- End of a run, form (a): exactly `n` calls of step (R258). -/
def runSteps : Nat → State → State
  | 0, s => s
  | n + 1, s => runSteps n (stateAfter s (step s))

/-- How a run of form (b) or (c) ended. -/
inductive RunEnd where
  /-- The stop address was reached at the start of a step, in READY. -/
  | reached (s : State)
  /-- The core is FAULTED. -/
  | faulted (s : State)
  /-- The allowed number of steps is used up. -/
  | unfinished (s : State)
  /-- A step had no meaning. -/
  | refused (r : Refusal)
  deriving DecidableEq, Repr

/-- Form (b): step until `ip` equals the stop address at the start of a step, for at most `fuel` steps. -/
def runUntil (stop : Word) : Nat → State → RunEnd
  | fuel, s =>
    match s.engine with
    | .faulted => .faulted s
    | .ready =>
      if s.reg .ip = stop then .reached s
      else
        match fuel with
        | 0 => .unfinished s
        | n + 1 =>
          match step s with
          | .next t => runUntil stop n t
          | .fault _ => .faulted s
          | .refused r => .refused r

/-- Form (c): step until the first fault, for at most `fuel` steps. -/
def runToFault : Nat → State → RunEnd
  | fuel, s =>
    match s.engine with
    | .faulted => .faulted s
    | .ready =>
      match fuel with
      | 0 => .unfinished s
      | n + 1 =>
        match step s with
        | .next t => runToFault n t
        | .fault _ => .faulted s
        | .refused r => .refused r

end Sys2Proof.Machine
end

