-- ==== Sys2Proof/Certificates/Slice0/Obligations.lean ====
section
/-! DEFINITION. The statements for the provers. The helpers of the first part say, in terms of one register
or one byte read, what an instruction leaves unchanged and what a fault leaves behind. -/

namespace Sys2Proof.Claims

open Sys2Proof.Machine

/-- Parameters, step state, fault record and step latch are unchanged. -/
def SameControl (s t : State) : Prop :=
  t.cfg = s.cfg ∧ t.engine = s.engine ∧ t.fault = s.fault ∧ t.instrStart = s.instrStart

/-- Every register outside a list is unchanged. -/
def RegsKeptBut (ds : List Reg) (s t : State) : Prop := ∀ r, r ∉ ds → t.reg r = s.reg r

/-- Every byte of memory reads as before. -/
def MemKept (s t : State) : Prop := ∀ b : Nat, t.mem.read b = s.mem.read b

/-- Every byte of memory but the two of the word at `a` reads as before. -/
def MemKeptOutside (a : Word) (s t : State) : Prop :=
  ∀ b : Nat, b ≠ a.toNat → b ≠ a.toNat + 1 → t.mem.read b = s.mem.read b

/-- The two bytes at `a` are those of `v`, the high one first. -/
def HoldsWord (s : State) (a v : Word) : Prop :=
  s.mem.read a.toNat = hiByte v ∧ s.mem.read (a.toNat + 1) = loByte v

/-- The number in the two bytes at `a`, the high one first. -/
def wordAt (s : State) (a : Word) : Word := joinBytes (s.mem.read a.toNat) (s.mem.read (a.toNat + 1))

/-- A word access at `a` is in bounds (20_memory.md R55). -/
abbrev WordOk (s : State) (a : Word) : Prop := a.toNat + 2 ≤ s.cfg.memSize

/-- `t` is `u` with a fault taken: FAULTED, the record filled in, and nothing else changed. `u` is the state
just before the micro-operation that faults. -/
def FaultedFrom (u t : State) (cause kind : BitVec 2) (addr : Word) (width : BitVec 2) : Prop :=
  t = { u with
        engine := .faulted,
        fault := { cause := cause, kind := kind, addr := addr, width := width, instrAddr := u.instrStart } }

/-- `n` bytes of the instruction stream from an address on, which wraps with `ip` (40_fetch_decode.md R101). -/
def stream (s : State) : Word → Nat → List Byte
  | _, 0 => []
  | a, n + 1 => s.mem.read a.toNat :: stream s (a + 1) n

/-- The fields of an instruction, opcode first, as (byte offset, bytes): 30_encoding.md R72. -/
def layout : Instr → List (Nat × Nat)
  | .movLitReg _ _ => [(0, 1), (1, 2), (3, 1)]
  | .movRegReg _ _ => [(0, 1), (1, 1), (2, 1)]
  | .movRegMem _ _ => [(0, 1), (1, 1), (2, 2)]
  | .movMemReg _ _ => [(0, 1), (1, 2), (3, 1)]
  | .addRegReg _ _ => [(0, 1), (1, 1), (2, 1)]
  | .jmpNotEq _ _  => [(0, 1), (1, 2), (3, 2)]
  | .pshLit _      => [(0, 1), (1, 2)]
  | .pshReg _      => [(0, 1), (1, 1)]
  | .pop _         => [(0, 1), (1, 1)]
  | .calLit _      => [(0, 1), (1, 2)]
  | .calReg _      => [(0, 1), (1, 1)]
  | .ret           => [(0, 1)]
  | .unassigned _  => [(0, 1)]

/-- The field at an offset from `a` is in bounds. -/
abbrev FieldOk (s : State) (a : Word) (f : Nat × Nat) : Prop :=
  (a + BitVec.ofNat 16 f.1).toNat + f.2 ≤ s.cfg.memSize

/-- The state in which `exec` meets an instruction of `n` bytes at `ip`: the start latched, `ip` after it. -/
def afterFetch (s : State) (n : Nat) : State :=
  (s.setStart (s.reg .ip)).setReg .ip (s.reg .ip + BitVec.ofNat 16 n)

/-- The state a step leaves when the fetch of the field (`o`, `w`) at `ip` is its first fault: `ip` at the
field, and the record of InvalidAddress(ip + o, w, fetch). -/
def fetchFault (s : State) (o w : Nat) : State :=
  { s.setReg .ip (s.reg .ip + BitVec.ofNat 16 o) with
    engine := .faulted,
    fault := { cause := 1, kind := 0, addr := s.reg .ip + BitVec.ofNat 16 o, width := BitVec.ofNat 2 w,
               instrAddr := s.reg .ip },
    instrStart := 0 }

/-- These bytes, wherever `ip` points to them, run as this instruction with these fields: if every field is
in bounds, the step is `exec` of it after the fetch; otherwise the first field that is not faults. -/
def RunsAs (m : OpcodeMap) (bytes : List Byte) (fields : List (Nat × Nat)) (i : Instr) : Prop :=
  ∀ s : State, s.cfg.wf → s.engine = .ready → s.cfg.opcodeMap = m →
    stream s (s.reg .ip) bytes.length = bytes →
    ((∀ f ∈ fields, FieldOk s (s.reg .ip) f) → step s = endStep (exec i (afterFetch s bytes.length))) ∧
    ∀ before o w after, fields = before ++ (o, w) :: after →
      (∀ f ∈ before, FieldOk s (s.reg .ip) f) → ¬ FieldOk s (s.reg .ip) (o, w) →
        step s = .next (fetchFault s o w)

/-- The address of the `j`-th push from a state on. -/
def pushSlot (s : State) (j : Nat) : Word := s.reg .sp - BitVec.ofNat 16 (2 * j)

/-- The words push_state pushes, in order: r1 to r8, the return address, the frame-size word (R190). -/
def frameWords (s : State) : List Word :=
  [s.reg .r1, s.reg .r2, s.reg .r3, s.reg .r4, s.reg .r5, s.reg .r6, s.reg .r7, s.reg .r8,
   s.reg .ip, s.cnt + 20]

/-- The first `n` pushes of push_state have happened to memory, and nothing else has. -/
def FramePushed (n : Nat) (s t : State) : Prop :=
  (∀ j v, j < n → (frameWords s)[j]? = some v → HoldsWord t (pushSlot s j) v) ∧
  ∀ b : Nat, (∀ j, j < n → b ≠ (pushSlot s j).toNat ∧ b ≠ (pushSlot s j).toNat + 1) →
    t.mem.read b = s.mem.read b

/-- `t` is what a call to `target` leaves (R190, R192, R193). -/
def CallEntered (target : Word) (s t : State) : Prop :=
  t.reg .ip = target ∧ t.reg .sp = pushSlot s 10 ∧ t.reg .fp = pushSlot s 10 ∧ t.cnt = 0 ∧
  RegsKeptBut [.ip, .sp, .fp] s t ∧ FramePushed 10 s t ∧ SameControl s t

/-- `t` is what a call leaves whose `j`-th push is the first out of bounds: the pushes before it stand, `sp`
and `cnt` count them, and `ip` and `fp` are not yet changed (R192, R222). -/
def CallFaulted (j : Nat) (s t : State) : Prop :=
  ∃ u, u.reg .sp = pushSlot s j ∧ u.cnt = s.cnt + BitVec.ofNat 16 (2 * j) ∧ RegsKeptBut [.sp] s u ∧
    FramePushed j s u ∧ SameControl s u ∧ FaultedFrom u t 1 2 (pushSlot s j) 2

/-- A call instruction with a target: it enters the call if all ten pushes are in bounds, and faults at the
first that is not. -/
def CallsTo (i : Instr) (target : State → Word) : Prop :=
  ∀ s : State, Memory.wf s.cfg.memSize s.mem →
    ((∀ j, j < 10 → WordOk s (pushSlot s j)) → ∃ t, exec i s = .next t ∧ CallEntered (target s) s t) ∧
    ∀ j, j < 10 → (∀ k, k < j → WordOk s (pushSlot s k)) → ¬ WordOk s (pushSlot s j) →
      ∃ t, exec i s = .next t ∧ CallFaulted j s t

/-- The address of the `j`-th pop of pop_state (R191): `fp + 2j`. -/
def popSlot (s : State) (j : Nat) : Word := s.reg .fp + BitVec.ofNat 16 (2 * j)

/-- The registers pop_state restores, in order, from the second pop on (R191). -/
def restoreOrder : List Reg := [.ip, .r8, .r7, .r6, .r5, .r4, .r3, .r2, .r1]

/-- The number of pops of a RET: the frame-size word, nine registers, `n_args`, and the words dropped. -/
def popCount (s : State) : Nat := 11 + (wordAt s (popSlot s 11)).toNat

/-- Memory accesses of an instruction's effect, by the kind code of its InvalidAddress (R221). -/
def dataFaultKind : Instr → Option (BitVec 2)
  | .movLitReg _ _ => none
  | .movRegReg _ _ => none
  | .movRegMem _ _ => some 2
  | .movMemReg _ _ => some 1
  | .addRegReg _ _ => none
  | .jmpNotEq _ _  => none
  | .pshLit _      => some 2
  | .pshReg _      => some 2
  | .pop _         => some 1
  | .calLit _      => some 2
  | .calReg _      => some 2
  | .ret           => some 1
  | .unassigned _  => none

/-- Whether an instruction's operand writes `sp` or `fp` (10_state.md R25). -/
def writesStackPointer : Instr → Bool
  | .movLitReg _ d => d == .sp || d == .fp
  | .movRegReg _ d => d == .sp || d == .fp
  | .movRegMem _ _ => false
  | .movMemReg _ d => d == .sp || d == .fp
  | .addRegReg _ _ => false
  | .jmpNotEq _ _  => false
  | .pshLit _      => false
  | .pshReg _      => false
  | .pop d         => d == .sp || d == .fp
  | .calLit _      => false
  | .calReg _      => false
  | .ret           => false
  | .unassigned _  => false

/-- Whether an instruction pushes or pops (R28). -/
def usesStack : Instr → Bool
  | .movLitReg _ _ => false
  | .movRegReg _ _ => false
  | .movRegMem _ _ => false
  | .movMemReg _ _ => false
  | .addRegReg _ _ => false
  | .jmpNotEq _ _  => false
  | .pshLit _      => true
  | .pshReg _      => true
  | .pop _         => true
  | .calLit _      => true
  | .calReg _      => true
  | .ret           => true
  | .unassigned _  => false

/-- The length of the instruction an opcode byte starts (R76). -/
def lengthOfOpcode (m : OpcodeMap) (op : Byte) : Nat :=
  if op = m.jmpNotEq then 5
  else if op = m.movLitReg ∨ op = m.movRegMem ∨ op = m.movMemReg then 4
  else if op = m.movRegReg ∨ op = m.addRegReg ∨ op = m.pshLit ∨ op = m.calLit then 3
  else if op = m.pshReg ∨ op = m.pop ∨ op = m.calReg then 2
  else 1

/-- The first `n` steps of a run each start in READY and away from its stop address. -/
def RunsAwayFrom (stop : Word) (n : Nat) (s : State) : Prop :=
  ∀ k, k < n → (runSteps k s).engine = .ready ∧ (runSteps k s).reg .ip ≠ stop

/-- A command other than Construct. -/
def keepsCore : Command → Bool
  | .construct _ _ => false
  | .step => true
  | .execute _ => true
  | .readReg _ => true
  | .writeReg _ _ => true
  | .readMem _ => true
  | .writeMem _ _ => true
  | .readCounter => true
  | .readStatus => true

end Sys2Proof.Claims

open Sys2Proof Sys2Proof.Machine Sys2Proof.Claims

/-! ## Encoding -/

/-- Decoding the bytes of a well-formed instruction gives it back, with whatever follows left over, for every
opcode map of distinct bytes and every operand value. -/
def Obligations.DecodeOfEncodeGivesTheInstruction : Prop :=
  ∀ (m : OpcodeMap) (i : Instr) (rest : List Byte), m.wf → i.wf m = true →
    decode m (encode m i ++ rest) = .ok (i, rest)

/-- R76: the opcode byte alone gives the length. Too few bytes are rejected by name; enough bytes always
decode, to a well-formed instruction of that length, with the rest left over. -/
def Obligations.LengthDependsOnTheOpcodeByteOnly : Prop :=
  ∀ (m : OpcodeMap) (op : Byte) (rest : List Byte), m.wf →
    (rest.length + 1 < lengthOfOpcode m op → decode m (op :: rest) = .error (.truncated op)) ∧
    (lengthOfOpcode m op ≤ rest.length + 1 →
      ∃ i, decode m (op :: rest) = .ok (i, rest.drop (lengthOfOpcode m op - 1)) ∧ i.wf m = true ∧
        i.length = lengthOfOpcode m op)

/-- R74: a selector byte selects ordinal `b mod 12`, at byte offset twice that; so every byte selects a
register, 12 and above select the same twelve again, and every register has a selector. -/
def Obligations.SelectorByteIsReducedModuloTwelve : Prop :=
  (∀ b : Byte, (selectReg b).ordinal = b.toNat % 12 ∧ (selectReg b).offset = b.toNat % 12 * 2) ∧
  (∀ (b : Byte) (k : Nat), b.toNat + 12 * k ≤ 255 →
    selectReg (BitVec.ofNat 8 (b.toNat + 12 * k)) = selectReg b) ∧
  ∀ r : Reg, selectReg (BitVec.ofNat 8 r.ordinal) = r

/-- R79: decoding matches the whole opcode byte; at most one operation matches, and a byte that matches none
is unassigned, and decodes to itself alone (R84). -/
def Obligations.OpcodeMatchIsExact : Prop :=
  ∀ (m : OpcodeMap) (op : Byte) (rest : List Byte), m.wf →
    (∀ o : Op, m.lookup op = some o ↔ m.byteOf o = op) ∧
    (m.lookup op = none ↔ op ∉ m.bytes) ∧
    (decode m (op :: rest) = .ok (.unassigned op, rest) ↔ op ∉ m.bytes)

/-- Words written out from the spec's encodings (30_encoding.md R86, default map), numbered as the opcode
table numbers them, decode to what they stand for. -/
def Obligations.WordsOfTheSpecDecode : Prop :=
  decodeTableWord 32 0x02341210 = some (.movLitReg 0x1234 .r1) ∧
  decodeTableWord 24 0x030211 = some (.movRegReg .r1 .r2) ∧
  decodeTableWord 32 0x34120212 = some (.movRegMem .r1 0x1234) ∧
  decodeTableWord 24 0x0C0E14 = some (.addRegReg 0x0E 0x0C) ∧
  decodeTableWord 40 0x0020030015 = some (.jmpNotEq 0x0003 0x2000) ∧
  decodeTableWord 16 0x0E1A = some (.pop .r1) ∧
  decodeTableWord 24 0x00305E = some (.calLit 0x3000) ∧
  decodeTableWord 8 0x60 = some .ret ∧
  decodeTableWord 8 0x16 = some (.unassigned 0x16)

/-! ## Registers and memory -/

/-- R21, R23: each register's two bytes lie at twice its ordinal in the 24-byte buffer, the high byte first;
a register reads back what was written, whichever it is, and no other register changes. -/
def Obligations.RegisterBufferAndRoundTrip : Prop :=
  (∀ (f : RegFile) (r : Reg), f.buffer.length = 24 ∧
    f.buffer[2 * r.ordinal]? = some (hiByte (f.read r)) ∧
    f.buffer[2 * r.ordinal + 1]? = some (loByte (f.read r))) ∧
  ∀ (f : RegFile) (r q : Reg) (v : Word),
    (f.write r v).read r = v ∧ (q ≠ r → (f.write r v).read q = f.read q)

/-- R53, R54, R55: a read in bounds returns the byte, or the two bytes as one number, and changes nothing; a
write in bounds sets the two bytes and no other; an access out of bounds raises InvalidAddress with its kind
and width, and touches nothing. -/
def Obligations.MemoryPortIsBigEndianAndBounded : Prop :=
  ∀ (s : State) (a v : Word) (k : AccessKind), Memory.wf s.cfg.memSize s.mem →
    (a.toNat + 1 ≤ s.cfg.memSize → read8 a s = .ok (s.mem.read a.toNat) s) ∧
    (s.cfg.memSize < a.toNat + 1 →
      ∃ t, read8 a s = .faulted t ∧ FaultedFrom s t 1 0 a 1) ∧
    (a.toNat + 2 ≤ s.cfg.memSize →
      (∃ w, read16 k a s = .ok w s ∧
        w.toNat = 256 * (s.mem.read a.toNat).toNat + (s.mem.read (a.toNat + 1)).toNat) ∧
      ∃ t, write16 a v s = .ok () t ∧
        (t.mem.read a.toNat).toNat = v.toNat / 256 ∧ (t.mem.read (a.toNat + 1)).toNat = v.toNat % 256 ∧
        MemKeptOutside a s t ∧ RegsKeptBut [] s t ∧ t.cnt = s.cnt ∧ SameControl s t) ∧
    (s.cfg.memSize < a.toNat + 2 →
      (∃ t, read16 k a s = .faulted t ∧ FaultedFrom s t 1 k.code a 2) ∧
      ∃ t, write16 a v s = .faulted t ∧ FaultedFrom s t 1 2 a 2)

/-- R56: a 2-byte access at 0xFFFF, or at MEM_SIZE - 1, is out of bounds for every legal MEM_SIZE: it never
wraps to address 0. -/
def Obligations.WordAccessNeverWraps : Prop :=
  ∀ (s : State) (a v : Word) (k : AccessKind), s.cfg.wf →
    a = 0xFFFF ∨ a.toNat = s.cfg.memSize - 1 →
      (∃ t, read16 k a s = .faulted t ∧ FaultedFrom s t 1 k.code a 2) ∧
      ∃ t, write16 a v s = .faulted t ∧ FaultedFrom s t 1 2 a 2

/-- A word stored by MOV_REG_MEM is what a MOV_MEM_REG of the same address then loads, whatever registers
they use. -/
def Obligations.StoredWordIsLoadedBack : Prop :=
  ∀ (s : State) (src dst : Reg) (a : Word), Memory.wf s.cfg.memSize s.mem → WordOk s a →
    ∃ t u, exec (.movRegMem src a) s = .next t ∧ exec (.movMemReg a dst) t = .next u ∧
      u.reg dst = s.reg src

/-- No instruction but MOV_REG_MEM, the pushes and the calls changes a byte of memory (20_memory.md R52). -/
def Obligations.OnlyStoresChangeMemory : Prop :=
  ∀ (i : Instr) (s t : State), exec i s = .next t → dataFaultKind i ≠ some 2 → MemKept s t

/-! ## The step -/

/-- A step runs the decoded instruction: when the bytes the step reads at `ip` decode to `i` and every field
of `i` is in bounds, the step is `exec i` in the state after the fetch, and then the latch is cleared. -/
def Obligations.StepRunsTheDecodedInstruction : Prop :=
  ∀ (s : State) (i : Instr), s.cfg.wf → s.engine = .ready →
    decode s.cfg.opcodeMap (stream s (s.reg .ip) i.length) = .ok (i, []) →
    (∀ f ∈ layout i, FieldOk s (s.reg .ip) f) →
      step s = endStep (exec i (afterFetch s i.length))

/-- The first field of the instruction at `ip` that is out of bounds faults as a fetch, with `ip` at that
field; the record names the field and the start of the step, and nothing else changes. -/
def Obligations.StepStopsAtTheFirstUnreadableField : Prop :=
  ∀ (s : State) (i : Instr), s.cfg.wf → s.engine = .ready →
    decode s.cfg.opcodeMap (stream s (s.reg .ip) i.length) = .ok (i, []) →
    ∀ before o w after, layout i = before ++ (o, w) :: after →
      (∀ f ∈ before, FieldOk s (s.reg .ip) f) → ¬ FieldOk s (s.reg .ip) (o, w) →
        step s = .next (fetchFault s o w)

/-- R108: execute(op) in READY runs the body of `op` with the operands at `ip`, so `ip` does not advance for
the opcode; the first operand field out of bounds faults as a fetch; an unassigned opcode changes nothing; in
FAULTED the fault record is the answer. -/
def Obligations.ExecuteOpcodeSkipsTheOpcodeFetch : Prop :=
  (∀ (s : State) (op : Byte) (i : Instr), s.cfg.wf → s.engine = .ready →
    decode s.cfg.opcodeMap (op :: stream s (s.reg .ip) (i.length - 1)) = .ok (i, []) →
    (∀ o w, (o + 1, w) ∈ layout i → FieldOk s (s.reg .ip) (o, w)) →
      executeOpcode op s = endStep (exec i (afterFetch s (i.length - 1)))) ∧
  (∀ (s : State) (op : Byte) (i : Instr), s.cfg.wf → s.engine = .ready →
    decode s.cfg.opcodeMap (op :: stream s (s.reg .ip) (i.length - 1)) = .ok (i, []) →
    ∀ o w, (o + 1, w) ∈ layout i → ¬ FieldOk s (s.reg .ip) (o, w) →
      (∀ p v, (p + 1, v) ∈ layout i → p < o → FieldOk s (s.reg .ip) (p, v)) →
        executeOpcode op s = .next (fetchFault s o w)) ∧
  (∀ (s : State) (op : Byte), s.engine = .ready → s.instrStart = 0 → op ∉ s.cfg.opcodeMap.bytes →
    executeOpcode op s = .next s) ∧
  ∀ (s : State) (op : Byte), s.engine = .faulted → executeOpcode op s = .fault (.engineFaulted s.fault)

/-- The latch of the step's start is not state: in READY its value before a step makes no difference (the
model's own field, log entry 3). -/
def Obligations.StartLatchIsNotObservable : Prop :=
  ∀ (s : State) (v : Word) (op : Byte), s.engine = .ready →
    step (s.setStart v) = step s ∧ executeOpcode op (s.setStart v) = executeOpcode op s

/-- A store is seen by the very next fetch: the two bytes stored, where they are a two-byte instruction, run
as that instruction when `ip` reaches them. -/
def Obligations.StoredBytesRunAtTheNextFetch : Prop :=
  ∀ (s : State) (src : Reg) (a : Word) (i : Instr), s.cfg.wf → Memory.wf s.cfg.memSize s.mem →
    s.engine = .ready → WordOk s a → decode s.cfg.opcodeMap [hiByte (s.reg src), loByte (s.reg src)] = .ok (i, []) →
      ∃ t, exec (.movRegMem src a) s = .next t ∧
        step (t.setReg .ip a) = endStep (exec i (afterFetch (t.setReg .ip a) 2))

/-- `withFetchWord` places an instruction where the very next step runs it: the instruction the decoder reads
from the same word, under the default opcode map (the model's own interface, log entry 10). -/
def Obligations.PlacedWordRunsNext : Prop :=
  ∀ (s : State) (nbits w : Nat) (i : Instr), Memory.wf s.cfg.memSize s.mem → s.engine = .ready →
    s.cfg.opcodeMap = OpcodeMap.default → (s.reg .ip).toNat + 5 ≤ s.cfg.memSize → s.cfg.memSize ≤ 65536 →
    decodeTableWord nbits w = some i →
      step (s.withFetchWord nbits w) = endStep (exec i (afterFetch (s.withFetchWord nbits w) i.length))

/-! ## The instructions -/

/-- R112: any byte outside OPCODE_MAP is fetched and does nothing more. -/
def Obligations.UnassignedOpcodeIsANoOp : Prop :=
  (∀ (m : OpcodeMap) (op : Byte), op ∉ m.bytes → RunsAs m [op] [(0, 1)] (.unassigned op)) ∧
  (∀ (op : Byte) (s : State), exec (.unassigned op) s = .next s) ∧
  ∀ (op : Byte) (s : State), s.engine = .ready → s.instrStart = 0 → op ∉ s.cfg.opcodeMap.bytes →
    executeOpcode op s = .next s

/-- R130: MOV_LIT_REG writes the literal into the selected register. -/
def Obligations.MovLitRegMovesTheLiteral : Prop :=
  (∀ (m : OpcodeMap) (hi lo b : Byte),
    RunsAs m [m.movLitReg, hi, lo, b] [(0, 1), (1, 2), (3, 1)]
      (.movLitReg (BitVec.ofNat 16 (256 * hi.toNat + lo.toNat)) (selectReg b))) ∧
  ∀ (literal : Word) (dst : Reg) (s : State),
    ∃ t, exec (.movLitReg literal dst) s = .next t ∧ t.reg dst = literal ∧
      RegsKeptBut [dst] s t ∧ t.cnt = s.cnt ∧ MemKept s t ∧ SameControl s t

/-- R131: MOV_REG_REG copies the source, read after both operand bytes, into the destination. -/
def Obligations.MovRegRegCopiesTheRegister : Prop :=
  (∀ (m : OpcodeMap) (a b : Byte),
    RunsAs m [m.movRegReg, a, b] [(0, 1), (1, 1), (2, 1)] (.movRegReg (selectReg a) (selectReg b))) ∧
  ∀ (src dst : Reg) (s : State),
    ∃ t, exec (.movRegReg src dst) s = .next t ∧ t.reg dst = s.reg src ∧
      RegsKeptBut [dst] s t ∧ t.cnt = s.cnt ∧ MemKept s t ∧ SameControl s t

/-- R132: MOV_REG_MEM stores the register as two bytes, or faults with no byte written. -/
def Obligations.MovRegMemStoresTheRegister : Prop :=
  (∀ (m : OpcodeMap) (b hi lo : Byte),
    RunsAs m [m.movRegMem, b, hi, lo] [(0, 1), (1, 1), (2, 2)]
      (.movRegMem (selectReg b) (BitVec.ofNat 16 (256 * hi.toNat + lo.toNat)))) ∧
  ∀ (src : Reg) (address : Word) (s : State), Memory.wf s.cfg.memSize s.mem →
    (WordOk s address → ∃ t, exec (.movRegMem src address) s = .next t ∧
      HoldsWord t address (s.reg src) ∧ MemKeptOutside address s t ∧
      RegsKeptBut [] s t ∧ t.cnt = s.cnt ∧ SameControl s t) ∧
    (¬ WordOk s address → ∃ t, exec (.movRegMem src address) s = .next t ∧ FaultedFrom s t 1 2 address 2)

/-- R133: MOV_MEM_REG loads the two bytes into the register, or faults with the register unwritten. -/
def Obligations.MovMemRegLoadsTheRegister : Prop :=
  (∀ (m : OpcodeMap) (hi lo b : Byte),
    RunsAs m [m.movMemReg, hi, lo, b] [(0, 1), (1, 2), (3, 1)]
      (.movMemReg (BitVec.ofNat 16 (256 * hi.toNat + lo.toNat)) (selectReg b))) ∧
  ∀ (address : Word) (dst : Reg) (s : State),
    (WordOk s address → ∃ t, exec (.movMemReg address dst) s = .next t ∧ t.reg dst = wordAt s address ∧
      RegsKeptBut [dst] s t ∧ t.cnt = s.cnt ∧ MemKept s t ∧ SameControl s t) ∧
    (¬ WordOk s address → ∃ t, exec (.movMemReg address dst) s = .next t ∧ FaultedFrom s t 1 1 address 2)

/-- R150: ADD_REG_REG writes the sum modulo 2^16 of the two registers into `acc`; a raw ordinal of 12 or more
raises UnknownRegister, the first operand before the second. -/
def Obligations.AddRegRegAddsModulo : Prop :=
  (∀ (m : OpcodeMap) (n1 n2 : Byte),
    RunsAs m [m.addRegReg, n1, n2] [(0, 1), (1, 1), (2, 1)] (.addRegReg n1 n2)) ∧
  (∀ (n1 n2 : Byte) (q1 q2 : Reg) (s : State), n1.toNat = q1.ordinal → n2.toNat = q2.ordinal →
    ∃ t, exec (.addRegReg n1 n2) s = .next t ∧
      (t.reg .acc).toNat = ((s.reg q1).toNat + (s.reg q2).toNat) % 65536 ∧
      RegsKeptBut [.acc] s t ∧ t.cnt = s.cnt ∧ MemKept s t ∧ SameControl s t) ∧
  (∀ (n1 n2 : Byte) (s : State), 12 ≤ n1.toNat →
    ∃ t, exec (.addRegReg n1 n2) s = .next t ∧ FaultedFrom s t 2 0 (BitVec.ofNat 16 n1.toNat) 0) ∧
  ∀ (n1 n2 : Byte) (s : State), n1.toNat < 12 → 12 ≤ n2.toNat →
    ∃ t, exec (.addRegReg n1 n2) s = .next t ∧ FaultedFrom s t 2 0 (BitVec.ofNat 16 n2.toNat) 0

/-- R160: JMP_NOT_EQ jumps to the address exactly when the literal differs from `acc`; the target is not
checked. -/
def Obligations.JmpNotEqJumpsOnDifference : Prop :=
  (∀ (m : OpcodeMap) (h1 l1 h2 l2 : Byte),
    RunsAs m [m.jmpNotEq, h1, l1, h2, l2] [(0, 1), (1, 2), (3, 2)]
      (.jmpNotEq (BitVec.ofNat 16 (256 * h1.toNat + l1.toNat)) (BitVec.ofNat 16 (256 * h2.toNat + l2.toNat)))) ∧
  ∀ (value address : Word) (s : State),
    ∃ t, exec (.jmpNotEq value address) s = .next t ∧
      t.reg .ip = (if value = s.reg .acc then s.reg .ip else address) ∧
      RegsKeptBut [.ip] s t ∧ t.cnt = s.cnt ∧ MemKept s t ∧ SameControl s t

/-- R173: PSH_LIT stores the literal at `sp`, then `sp` goes down by 2 and `cnt` up by 2; or faults with
neither changed. -/
def Obligations.PshLitPushesTheLiteral : Prop :=
  (∀ (m : OpcodeMap) (hi lo : Byte),
    RunsAs m [m.pshLit, hi, lo] [(0, 1), (1, 2)] (.pshLit (BitVec.ofNat 16 (256 * hi.toNat + lo.toNat)))) ∧
  ∀ (value : Word) (s : State), Memory.wf s.cfg.memSize s.mem →
    (WordOk s (s.reg .sp) → ∃ t, exec (.pshLit value) s = .next t ∧
      HoldsWord t (s.reg .sp) value ∧ MemKeptOutside (s.reg .sp) s t ∧
      t.reg .sp = s.reg .sp - 2 ∧ t.cnt = s.cnt + 2 ∧ RegsKeptBut [.sp] s t ∧ SameControl s t) ∧
    (¬ WordOk s (s.reg .sp) →
      ∃ t, exec (.pshLit value) s = .next t ∧ FaultedFrom s t 1 2 (s.reg .sp) 2)

/-- R174: PSH_REG pushes the register as it was before `sp` moves. -/
def Obligations.PshRegPushesTheRegister : Prop :=
  (∀ (m : OpcodeMap) (b : Byte), RunsAs m [m.pshReg, b] [(0, 1), (1, 1)] (.pshReg (selectReg b))) ∧
  ∀ (src : Reg) (s : State), Memory.wf s.cfg.memSize s.mem →
    (WordOk s (s.reg .sp) → ∃ t, exec (.pshReg src) s = .next t ∧
      HoldsWord t (s.reg .sp) (s.reg src) ∧ MemKeptOutside (s.reg .sp) s t ∧
      t.reg .sp = s.reg .sp - 2 ∧ t.cnt = s.cnt + 2 ∧ RegsKeptBut [.sp] s t ∧ SameControl s t) ∧
    (¬ WordOk s (s.reg .sp) →
      ∃ t, exec (.pshReg src) s = .next t ∧ FaultedFrom s t 1 2 (s.reg .sp) 2)

/-- R175: POP moves `sp` up by 2 and `cnt` down by 2, reads the word there and writes it last, so that a POP
into `sp` leaves the popped word; a fault leaves `sp` and `cnt` moved and the destination unwritten. -/
def Obligations.PopReadsIntoTheRegister : Prop :=
  (∀ (m : OpcodeMap) (b : Byte), RunsAs m [m.pop, b] [(0, 1), (1, 1)] (.pop (selectReg b))) ∧
  ∀ (dst : Reg) (s : State),
    (WordOk s (s.reg .sp + 2) → ∃ t, exec (.pop dst) s = .next t ∧
      t.reg dst = wordAt s (s.reg .sp + 2) ∧ (dst ≠ .sp → t.reg .sp = s.reg .sp + 2) ∧
      t.cnt = s.cnt - 2 ∧ RegsKeptBut [dst, .sp] s t ∧ MemKept s t ∧ SameControl s t) ∧
    (¬ WordOk s (s.reg .sp + 2) → ∃ t, exec (.pop dst) s = .next t ∧
      FaultedFrom ((s.setReg .sp (s.reg .sp + 2)).setCnt (s.cnt - 2)) t 1 1 (s.reg .sp + 2) 2)

/-- R192: CAL_LIT pushes the frame of R190 and jumps to the literal address; or faults at the first push out
of bounds, with the pushes before it done. -/
def Obligations.CalLitSavesTheFrameAndJumps : Prop :=
  (∀ (m : OpcodeMap) (hi lo : Byte),
    RunsAs m [m.calLit, hi, lo] [(0, 1), (1, 2)] (.calLit (BitVec.ofNat 16 (256 * hi.toNat + lo.toNat)))) ∧
  ∀ address : Word, CallsTo (.calLit address) fun _ => address

/-- R193: CAL_REG reads the target first, then does as CAL_LIT. -/
def Obligations.CalRegSavesTheFrameAndJumps : Prop :=
  (∀ (m : OpcodeMap) (b : Byte), RunsAs m [m.calReg, b] [(0, 1), (1, 1)] (.calReg (selectReg b))) ∧
  ∀ src : Reg, CallsTo (.calReg src) fun s => s.reg src

/-- R191, R194: RET unwinds the frame at `fp`: `ip` and r8 to r1 come from the words above the frame-size
word W, `sp` ends above the dropped arguments, `cnt` is W less 2 for each later pop, and `fp` is its old value
plus W; `acc` and memory stay. At the first pop out of bounds it faults, with the pops before it done. -/
def Obligations.RetUnwindsTheFrame : Prop :=
  (∀ m : OpcodeMap, RunsAs m [m.ret] [(0, 1)] .ret) ∧
  ∀ s : State,
    ((∀ j, 1 ≤ j → j ≤ popCount s → WordOk s (popSlot s j)) →
      ∃ t, exec .ret s = .next t ∧
        (∀ p r, restoreOrder[p]? = some r → t.reg r = wordAt s (popSlot s (p + 2))) ∧
        t.reg .sp = popSlot s (popCount s) ∧
        t.reg .fp = s.reg .fp + wordAt s (popSlot s 1) ∧
        t.cnt = wordAt s (popSlot s 1) - BitVec.ofNat 16 (2 * (popCount s - 1)) ∧
        t.reg .acc = s.reg .acc ∧ MemKept s t ∧ SameControl s t) ∧
    ∀ j, 1 ≤ j → j ≤ popCount s → (∀ k, 1 ≤ k → k < j → WordOk s (popSlot s k)) → ¬ WordOk s (popSlot s j) →
      ∃ u t, exec .ret s = .next t ∧
        (∀ p r, restoreOrder[p]? = some r →
          u.reg r = if p + 2 < j then wordAt s (popSlot s (p + 2)) else s.reg r) ∧
        u.reg .sp = popSlot s j ∧ u.reg .fp = s.reg .fp ∧ u.reg .acc = s.reg .acc ∧
        u.cnt = (if j = 1 then s.cnt - 2 else wordAt s (popSlot s 1) - BitVec.ofNat 16 (2 * (j - 1))) ∧
        MemKept s u ∧ SameControl s u ∧ FaultedFrom u t 1 1 (popSlot s j) 2

/-! ## The stack and the frame protocol -/

/-- R176: a push that is in bounds, then a pop, returns the word, leaves `sp` and `cnt` as they were, and
memory holds the word at the old `sp`; across the wrap of `sp` too. -/
def Obligations.PopUndoesPush : Prop :=
  ∀ (s : State) (v : Word), Memory.wf s.cfg.memSize s.mem → WordOk s (s.reg .sp) →
    ∃ t u, push v s = .ok () t ∧ pop t = .ok v u ∧
      u.reg .sp = s.reg .sp ∧ u.cnt = s.cnt ∧ HoldsWord u (s.reg .sp) v

/-- A push with `sp + 2 <= MEM_SIZE` completes, and one from MEM_SIZE - 1 up faults; a pop that brings `sp` to
a word in bounds completes, and one that brings it to MEM_SIZE - 1 or above faults, with `sp` and `cnt` moved; in
a memory of 65536 bytes a pop from 0xFFFE reads address 0; in a smaller one a pop from the initial `sp` faults. -/
def Obligations.StackBoundsAreThoseOfMemory : Prop :=
  ∀ (s : State) (v : Word), s.cfg.wf →
    (WordOk s (s.reg .sp) →
      ∃ t, push v s = .ok () t ∧ t.reg .sp = s.reg .sp - 2 ∧ t.cnt = s.cnt + 2 ∧ SameControl s t) ∧
    (WordOk s (s.reg .sp + 2) →
      ∃ t, pop s = .ok (wordAt s (s.reg .sp + 2)) t ∧ t.reg .sp = s.reg .sp + 2 ∧ t.cnt = s.cnt - 2 ∧
        MemKept s t ∧ SameControl s t) ∧
    (s.cfg.memSize - 1 ≤ (s.reg .sp).toNat →
      ∃ t, push v s = .faulted t ∧ FaultedFrom s t 1 2 (s.reg .sp) 2) ∧
    (s.cfg.memSize - 1 ≤ (s.reg .sp + 2).toNat →
      ∃ t, pop s = .faulted t ∧
        FaultedFrom ((s.setReg .sp (s.reg .sp + 2)).setCnt (s.cnt - 2)) t 1 1 (s.reg .sp + 2) 2) ∧
    (s.cfg.memSize = 65536 → s.reg .sp = 0xFFFE →
      ∃ t, pop s = .ok (wordAt s 0) t ∧ t.reg .sp = 0 ∧ t.cnt = s.cnt - 2 ∧ SameControl s t) ∧
    (s.cfg.memSize < 65536 → (s.reg .sp).toNat = s.cfg.memSize - 2 →
      ∃ t, pop s = .faulted t ∧ t.engine = .faulted ∧ t.fault.addr.toNat = s.cfg.memSize)

/-- The relation `fp = sp +16 cnt` holds at construction, and every instruction keeps it, in a fault too, but
RET and the instructions whose operand writes `sp` or `fp`. That CAL_REG is among those that keep it is the
model's reading (log entry 9): it follows from push_state (45_call_return.md, `fp <- sp` and `cnt <- 0`) and goes
against the last sentence of 44_stack.md's invariant rule. -/
def Obligations.FrameBaseIsSpPlusCnt : Prop :=
  (∀ (m : OpcodeMap) (image : List Byte) (s : State), construct m image = .next s →
    s.reg .fp = s.reg .sp + s.cnt) ∧
  ∀ (i : Instr) (s t : State), i ≠ .ret → writesStackPointer i = false → exec i s = .next t →
    s.reg .fp = s.reg .sp + s.cnt → t.reg .fp = t.reg .sp + t.cnt

/-- The counter changes only in the instructions that push or pop (10_state.md R28). -/
def Obligations.CounterChangesOnlyOnTheStack : Prop :=
  ∀ (i : Instr) (s t : State), exec i s = .next t → usesStack i = false → t.cnt = s.cnt

/-- A call whose pushes are in bounds, then RET in any state that still has the callee's `fp` and the frame
words: r1 to r8 and the return address come back, `fp` is the caller's `sp +16 cnt`, `sp` is above the `k`
arguments and their count, `cnt` is the caller's less `2k`; so afterwards `sp +16 cnt = fp +16 2`, and `fp` is
the caller's own only if it was `sp +16 cnt` at the call. `acc` is the callee's. -/
def Obligations.ReturnRestoresTheCaller : Prop :=
  ∀ (s t u : State) (i : Instr), Memory.wf s.cfg.memSize s.mem → s.engine = .ready →
    ((∃ a, i = .calLit a) ∨ ∃ r, i = .calReg r) → exec i s = .next t → t.engine = .ready →
    u.cfg = t.cfg → u.reg .fp = t.reg .fp →
    (∀ j, 1 ≤ j → j ≤ 10 → wordAt u (popSlot u j) = wordAt t (popSlot t j)) →
    (∀ j, 11 ≤ j → j ≤ popCount u → WordOk u (popSlot u j)) →
      ∃ v, exec .ret u = .next v ∧
        v.reg .ip = s.reg .ip ∧
        (∀ r ∈ [Reg.r1, .r2, .r3, .r4, .r5, .r6, .r7, .r8], v.reg r = s.reg r) ∧
        v.reg .fp = s.reg .sp + s.cnt ∧
        v.reg .sp = s.reg .sp + 2 + 2 * wordAt u (s.reg .sp + 2) ∧
        v.cnt = s.cnt - 2 * wordAt u (s.reg .sp + 2) ∧
        v.reg .sp + v.cnt = v.reg .fp + 2 ∧
        (s.reg .fp = s.reg .sp + s.cnt → v.reg .fp = s.reg .fp) ∧
        v.reg .acc = u.reg .acc ∧ MemKept u v ∧ SameControl u v

/-! ## Faults -/

/-- R111: in FAULTED, step and execute change nothing and return the record; no command but Construct leaves
FAULTED or changes the record. -/
def Obligations.OnlyConstructionLeavesFaulted : Prop :=
  ∀ (s : State), s.engine = .faulted →
    step s = .fault (.engineFaulted s.fault) ∧
    command .step s = (.result (.fault s.fault), s) ∧
    (∀ op, command (.execute op) s = (.result (.fault s.fault), s)) ∧
    ∀ c : Command, keepsCore c = true → (command c s).2.engine = .faulted ∧ (command c s).2.fault = s.fault

/-- R223: a step or an execute that faults fills in a legal record whose instr_addr is the `ip` it started at;
one that does not fault leaves the record alone; once FAULTED, no command but Construct changes it. -/
def Obligations.FaultRecordIsWrittenOnce : Prop :=
  (∀ (s t : State) (op : Byte), s.engine = .ready → step s = .next t ∨ executeOpcode op s = .next t →
    (t.engine = .faulted → t.fault.legal s.cfg.memSize ∧ t.fault.instrAddr = s.reg .ip) ∧
    (t.engine = .ready → t.fault = s.fault)) ∧
  ∀ (s : State) (c : Command), s.engine = .faulted → keepsCore c = true → (command c s).2.fault = s.fault

/-- An instruction's effect raises InvalidAddress only if it is one of the storing or loading instructions of
the table of R221, with that kind and width 2; UnknownRegister only if it is ADD_REG_REG; so an unassigned
opcode, a wrapped selector or sum, a jump and a register move never fault. -/
def Obligations.FaultsAreThoseOfTheTable : Prop :=
  ∀ (i : Instr) (s t : State), s.engine = .ready → exec i s = .next t → t.engine = .faulted →
    (t.fault.cause = 1 ∧ dataFaultKind i = some t.fault.kind ∧ t.fault.width = 2 ∧
      s.cfg.memSize < t.fault.addr.toNat + 2) ∨
    (t.fault.cause = 2 ∧ ∃ n1 n2, i = .addRegReg n1 n2 ∧
      ((12 ≤ n1.toNat ∧ t.fault.addr.toNat = n1.toNat) ∨
        (n1.toNat < 12 ∧ 12 ≤ n2.toNat ∧ t.fault.addr.toNat = n2.toNat)))

/-! ## Construction, invariants and the host -/

/-- R251, R252: construction from an image of 2 to 65536 bytes gives the stated values, with the image as
memory and its length as MEM_SIZE; any other length is refused. -/
def Obligations.ConstructionGivesTheStatedState : Prop :=
  ∀ (m : OpcodeMap) (image : List Byte), m.wf →
    (image.length < 2 ∨ 65536 < image.length → construct m image = .refused (.imageSize image.length)) ∧
    (2 ≤ image.length → image.length ≤ 65536 →
      ∃ s, construct m image = .next s ∧ s.cfg.memSize = image.length ∧ s.cfg.opcodeMap = m ∧
        (∀ r, r ≠ .sp → r ≠ .fp → s.reg r = 0) ∧
        (s.reg .sp).toNat = image.length - 2 ∧ (s.reg .fp).toNat = image.length - 2 ∧ s.cnt = 0 ∧
        (∀ a, a < image.length → image[a]? = some (s.mem.read a)) ∧
        s.engine = .ready ∧
        s.fault = { cause := 0, kind := 0, addr := 0, width := 0, instrAddr := 0 } ∧ Invariant s)

/-- The reset state is construction from the zero-filled image of 65536 bytes under the default opcode map
(the model's choice of parameters, log entries 2 and 5). -/
def Obligations.ResetIsConstructionFromZeros : Prop :=
  construct OpcodeMap.default (List.replicate 65536 0) = .next State.reset

/-- The invariant holds at reset. -/
def Obligations.ResetMeetsTheInvariant : Prop := Invariant State.reset

/-- Every step keeps the invariant: parameters stay legal, memory stays canonical and inside MEM_SIZE, the
record is all zero in READY and legal in FAULTED, and no step is left under way. -/
def Obligations.StepKeepsTheInvariant : Prop :=
  ∀ s t : State, Invariant s → step s = .next t → Invariant t

/-- Every command keeps the invariant, Construct and host writes too. -/
def Obligations.CommandsKeepTheInvariant : Prop :=
  ∀ (c : Command) (s : State), Invariant s → Invariant (command c s).2

/-- MEM_SIZE and OPCODE_MAP are fixed at construction: no other command changes them. A step in READY always
answers a next state; that it does so even when it faults is the model's choice of outcome (log entry 4), for the
state that 60_exceptions.md says a fault leaves. -/
def Obligations.ParametersAreFixedAtConstruction : Prop :=
  (∀ (c : Command) (s : State), keepsCore c = true → (command c s).2.cfg = s.cfg) ∧
  ∀ s : State, s.engine = .ready → ∃ t, step s = .next t ∧ t.cfg = s.cfg

/-- The read commands change nothing; a memory command out of range is refused with no change; WriteReg and
WriteMem write their one register or byte, in READY and in FAULTED (40_fetch_decode.md R116, R117). -/
def Obligations.HostCommandsReadAndWrite : Prop :=
  ∀ (s : State) (r : Reg) (v : Word) (a : Nat) (b : Byte), Memory.wf s.cfg.memSize s.mem →
    command (.readReg r) s = (.word (s.reg r), s) ∧
    command .readCounter s = (.word s.cnt, s) ∧
    command .readStatus s = (.status s.engine s.fault, s) ∧
    ((command (.writeReg r v) s).2.reg r = v ∧ RegsKeptBut [r] s (command (.writeReg r v) s).2 ∧
      (command (.writeReg r v) s).2.cnt = s.cnt ∧ MemKept s (command (.writeReg r v) s).2 ∧
      SameControl s (command (.writeReg r v) s).2) ∧
    (a < s.cfg.memSize →
      command (.readMem a) s = (.byte (s.mem.read a), s) ∧
      (command (.writeMem a b) s).1 = .done ∧
      (command (.writeMem a b) s).2.mem.read a = b ∧
      (∀ c, c ≠ a → (command (.writeMem a b) s).2.mem.read c = s.mem.read c) ∧
      RegsKeptBut [] s (command (.writeMem a b) s).2 ∧ (command (.writeMem a b) s).2.cnt = s.cnt ∧
      SameControl s (command (.writeMem a b) s).2) ∧
    (s.cfg.memSize ≤ a →
      command (.readMem a) s = (.refused (.hostAddress a), s) ∧
      command (.writeMem a b) s = (.refused (.hostAddress a), s))

/-- A run to a stop address answers `reached t` exactly when `t` is the first state of the run at that address,
in READY, and answers `faulted t` exactly when it is FAULTED at `t` before any such state; a run to the first
fault answers `faulted t` exactly when `t` is its first FAULTED state. So a faulted state is never a successful
end. That each takes at most `fuel` steps is the model's choice (log entry 13). -/
def Obligations.RunsEndAsDefined : Prop :=
  ∀ (stop : Word) (fuel : Nat) (s t : State),
    (runUntil stop fuel s = .reached t ↔
      ∃ n, n ≤ fuel ∧ runSteps n s = t ∧ RunsAwayFrom stop n s ∧ t.engine = .ready ∧ t.reg .ip = stop) ∧
    (runUntil stop fuel s = .faulted t ↔
      ∃ n, n ≤ fuel ∧ runSteps n s = t ∧ RunsAwayFrom stop n s ∧ t.engine = .faulted) ∧
    (runToFault fuel s = .faulted t ↔
      ∃ n, n ≤ fuel ∧ runSteps n s = t ∧ (∀ k, k < n → (runSteps k s).engine = .ready) ∧ t.engine = .faulted)

/-- R113: step() and execute() reply Ok when the state they leave is READY, and Fault(record) with the record
they leave when it is FAULTED. From READY that record is a legal one of this step, with its start; from FAULTED
it is the one already held. The state they leave is that of `step` and `executeOpcode`. -/
def Obligations.StepAndExecuteReplyOkOrTheRecord : Prop :=
  ∀ (s : State) (op : Byte) (c : Command), c = .step ∨ c = .execute op →
    ((command c s).2.engine = .ready → (command c s).1 = .result .ok) ∧
    ((command c s).2.engine = .faulted → (command c s).1 = .result (.fault (command c s).2.fault)) ∧
    (s.engine = .ready → (command c s).2.engine = .faulted →
      (command c s).2.fault.legal s.cfg.memSize ∧ (command c s).2.fault.instrAddr = s.reg .ip) ∧
    (s.engine = .faulted → (command c s).2 = s) ∧
    ∀ t, (c = .step → step s = .next t → (command c s).2 = t) ∧
      (c = .execute op → executeOpcode op s = .next t → (command c s).2 = t)
end

