-- ==== Sys2Proof/Laws/Words.lean ====
section
/-! SUPPORT. Laws of the byte order and of the register ordinals and selectors (Decode.lean). -/

namespace Sys2Proof

theorem hiByte_toNat (v : Word) : (hiByte v).toNat = v.toNat / 256 := by
  have h := v.isLt
  simp only [hiByte, BitVec.extractLsb'_toNat, Nat.shiftRight_eq_div_pow]
  omega

theorem loByte_toNat (v : Word) : (loByte v).toNat = v.toNat % 256 := by
  simp [loByte, BitVec.extractLsb'_toNat]

theorem joinBytes_toNat (hi lo : Byte) : (joinBytes hi lo).toNat = 256 * hi.toNat + lo.toNat := by
  have h := lo.isLt
  have e := BitVec.toNat_append hi lo
  rw [show (joinBytes hi lo).toNat = (hi ++ lo).toNat from rfl, e,
    ← Nat.shiftLeft_add_eq_or_of_lt h, Nat.shiftLeft_eq]
  omega

theorem joinBytes_eq_ofNat (hi lo : Byte) :
    joinBytes hi lo = BitVec.ofNat 16 (256 * hi.toNat + lo.toNat) := by
  apply BitVec.eq_of_toNat_eq
  rw [joinBytes_toNat, BitVec.toNat_ofNat, Nat.mod_eq_of_lt]
  have := hi.isLt
  have := lo.isLt
  omega

@[simp] theorem hiByte_joinBytes (hi lo : Byte) : hiByte (joinBytes hi lo) = hi := by
  apply BitVec.eq_of_toNat_eq
  have := lo.isLt
  rw [hiByte_toNat, joinBytes_toNat]
  omega

@[simp] theorem loByte_joinBytes (hi lo : Byte) : loByte (joinBytes hi lo) = lo := by
  apply BitVec.eq_of_toNat_eq
  have := lo.isLt
  rw [loByte_toNat, joinBytes_toNat]
  omega

@[simp] theorem joinBytes_hi_lo (v : Word) : joinBytes (hiByte v) (loByte v) = v := by
  apply BitVec.eq_of_toNat_eq
  rw [joinBytes_toNat, hiByte_toNat, loByte_toNat]
  omega

theorem Reg.ordinal_lt (r : Reg) : r.ordinal < 12 := by cases r <;> decide

@[simp] theorem Reg.ofOrdinal_ordinal (r : Reg) : Reg.ofOrdinal r.ordinal = some r := by
  cases r <;> rfl

theorem Reg.ofOrdinal_of_ge {n : Nat} (h : 12 ≤ n) : Reg.ofOrdinal n = none := by
  obtain ⟨k, rfl⟩ := Nat.exists_eq_add_of_le' h
  rfl

theorem Reg.ofOrdinal_of_lt {n : Nat} (h : n < 12) : ∃ r, Reg.ofOrdinal n = some r ∧ r.ordinal = n := by
  interval_cases n <;> exact ⟨_, rfl, rfl⟩

theorem selectReg_eq_of_ordinal {b : Byte} {r : Reg} (h : b.toNat % 12 = r.ordinal) : selectReg b = r := by
  unfold selectReg
  rw [h]
  cases r <;> rfl

@[simp] theorem selectReg_selector (r : Reg) : selectReg r.selector = r :=
  selectReg_eq_of_ordinal (by cases r <;> rfl)

end Sys2Proof
end

