-- ==== Sys2Proof/Laws/Decoding.lean ====
section
/-! SUPPORT. Laws of the opcode map and of operand plans over bytes. -/

namespace Sys2Proof

theorem OpcodeMap.byteOf_mem_bytes (m : OpcodeMap) (o : Op) : m.byteOf o ∈ m.bytes := by
  cases o <;> simp [OpcodeMap.byteOf, OpcodeMap.bytes]

theorem OpcodeMap.exists_of_mem_bytes {m : OpcodeMap} {b : Byte} (h : b ∈ m.bytes) : ∃ o, m.byteOf o = b := by
  simp only [OpcodeMap.bytes, List.mem_cons, List.not_mem_nil, or_false] at h
  rcases h with h | h | h | h | h | h | h | h | h | h | h | h <;> subst h
  exacts [⟨.movLitReg, rfl⟩, ⟨.movRegReg, rfl⟩, ⟨.movRegMem, rfl⟩, ⟨.movMemReg, rfl⟩, ⟨.addRegReg, rfl⟩,
    ⟨.jmpNotEq, rfl⟩, ⟨.pshLit, rfl⟩, ⟨.pshReg, rfl⟩, ⟨.pop, rfl⟩, ⟨.calLit, rfl⟩, ⟨.calReg, rfl⟩, ⟨.ret, rfl⟩]

theorem Op.mem_all (o : Op) : o ∈ Op.all := by cases o <;> simp [Op.all]

/-- Distinct bytes name distinct operations (R12, R79). -/
theorem OpcodeMap.byteOf_injective {m : OpcodeMap} (hm : m.wf) {o p : Op} (h : m.byteOf o = m.byteOf p) :
    o = p := by
  have hmap : m.bytes = Op.all.map m.byteOf := rfl
  rw [OpcodeMap.wf, hmap] at hm
  exact List.inj_on_of_nodup_map hm (Op.mem_all o) (Op.mem_all p) h

theorem OpcodeMap.lookup_of_byteOf {m : OpcodeMap} (hm : m.wf) (o : Op) : m.lookup (m.byteOf o) = some o := by
  unfold OpcodeMap.lookup
  cases hf : Op.all.find? (fun p => m.byteOf p == m.byteOf o) with
  | none =>
    have := List.find?_eq_none.mp hf o (Op.mem_all o)
    simp at this
  | some p =>
    have hp := List.find?_some hf
    have hpo : m.byteOf p = m.byteOf o := by simpa using hp
    rw [OpcodeMap.byteOf_injective hm hpo]

theorem OpcodeMap.lookup_eq_none {m : OpcodeMap} {b : Byte} (h : b ∉ m.bytes) : m.lookup b = none := by
  unfold OpcodeMap.lookup
  refine List.find?_eq_none.mpr fun o _ hb => h ?_
  rw [← show m.byteOf o = b by simpa using hb]
  exact m.byteOf_mem_bytes o

theorem planFor_byteOf {m : OpcodeMap} (hm : m.wf) (o : Op) : planFor m (m.byteOf o) = operandPlan o := by
  rw [planFor, OpcodeMap.lookup_of_byteOf hm]

theorem planFor_unassigned {m : OpcodeMap} {b : Byte} (h : b ∉ m.bytes) :
    planFor m b = .done (.unassigned b) := by
  rw [planFor, OpcodeMap.lookup_eq_none h]

@[simp] theorem Plan.onBytes_done (op : Byte) (i : Instr) (bs : List Byte) :
    (Plan.done i).onBytes op bs = .ok (i, bs) := by rw [Plan.onBytes]

@[simp] theorem Plan.onBytes_reg (op : Byte) (k : Reg → Plan) (b : Byte) (bs : List Byte) :
    (Plan.reg k).onBytes op (b :: bs) = (k (selectReg b)).onBytes op bs := by rw [Plan.onBytes]

@[simp] theorem Plan.onBytes_ord (op : Byte) (k : Byte → Plan) (b : Byte) (bs : List Byte) :
    (Plan.ord k).onBytes op (b :: bs) = (k b).onBytes op bs := by rw [Plan.onBytes]

@[simp] theorem Plan.onBytes_imm16 (op : Byte) (k : Word → Plan) (hi lo : Byte) (bs : List Byte) :
    (Plan.imm16 k).onBytes op (hi :: lo :: bs) = (k (joinBytes hi lo)).onBytes op bs := by rw [Plan.onBytes]

end Sys2Proof
end

