-- ==== Sys2Proof/Laws/Memory.lean ====
section
/-! SUPPORT. Laws of memory: a read after a write, and that every operation keeps the canonical form. -/

namespace Sys2Proof.Machine

/-- A write leaves every other address alone. -/
theorem Memory.read_write_ne (m : Memory) {a b : Nat} (v : Byte) (h : b ≠ a) :
    (Memory.write m a v).read b = m.read b := by
  induction m with
  | nil =>
    unfold Memory.write
    split <;> simp [Memory.read, Ne.symm h]
  | cons c rest ih =>
    obtain ⟨k, w⟩ := c
    unfold Memory.write
    split
    · split <;> simp [Memory.read, Ne.symm h]
    · split
      · rename_i hak
        subst hak
        split <;> simp [Memory.read, Ne.symm h]
      · simp [Memory.read, ih]

/-- Below the first listed address, and at any unlisted one, a byte reads 0. -/
theorem Memory.read_of_forall_lt {m : Memory} {a : Nat} (h : ∀ c ∈ m, a < c.1) : m.read a = 0 := by
  induction m with
  | nil => rfl
  | cons c rest ih =>
    have hc : a < c.1 := h c (by simp)
    rw [show Memory.read (c :: rest) a = if c.1 = a then c.2 else Memory.read rest a from rfl,
      if_neg (by omega), ih fun d hd => h d (by simp [hd])]

/-- A sorted memory reads back what was written. -/
theorem Memory.read_write_self_of_sorted {m : Memory} (hs : m.Pairwise (fun c d => c.1 < d.1)) (a : Nat)
    (v : Byte) : (Memory.write m a v).read a = v := by
  induction m with
  | nil =>
    unfold Memory.write
    split <;> simp_all [Memory.read]
  | cons c rest ih =>
    obtain ⟨k, w⟩ := c
    have hlt : ∀ d ∈ rest, k < d.1 := fun d hd => (List.pairwise_cons.mp hs).1 d hd
    unfold Memory.write
    split
    · rename_i hak
      split
      · rename_i hv
        rw [hv]
        refine Memory.read_of_forall_lt fun d hd => ?_
        rcases List.mem_cons.mp hd with rfl | hd
        · exact hak
        · exact Nat.lt_trans hak (hlt d hd)
      · simp [Memory.read]
    · split
      · rename_i hak
        subst hak
        split
        · rename_i hv
          rw [hv, Memory.read_of_forall_lt hlt]
        · simp [Memory.read]
      · rename_i hak
        simp [Memory.read, Ne.symm hak, ih (List.pairwise_cons.mp hs).2]

theorem Memory.read_write_self {size : Nat} {m : Memory} (hw : m.wf size) (a : Nat) (v : Byte) :
    (Memory.write m a v).read a = v :=
  Memory.read_write_self_of_sorted hw.1 a v

/-- The cells of a memory after a write are old ones, or the new one. -/
theorem Memory.mem_write {m : Memory} {a : Nat} {v : Byte} {c : Host.Cell} (h : c ∈ Memory.write m a v) :
    c ∈ m ∨ (c = (a, v) ∧ v ≠ 0) := by
  induction m with
  | nil =>
    unfold Memory.write at h
    split at h
    · simp at h
    · exact .inr ⟨by simpa using h, ‹_›⟩
  | cons d rest ih =>
    obtain ⟨k, w⟩ := d
    unfold Memory.write at h
    split at h
    · split at h
      · exact .inl h
      · rcases List.mem_cons.mp h with rfl | h
        · exact .inr ⟨rfl, ‹_›⟩
        · exact .inl h
    · split at h
      · split at h
        · exact .inl (List.mem_cons_of_mem _ h)
        · rcases List.mem_cons.mp h with rfl | h
          · exact .inr ⟨rfl, ‹_›⟩
          · exact .inl (List.mem_cons_of_mem _ h)
      · rcases List.mem_cons.mp h with rfl | h
        · exact .inl (by simp)
        · exact (ih h).imp_left (List.mem_cons_of_mem _)

/-- A write below `size` keeps the canonical form. -/
theorem Memory.write_wf {size : Nat} {m : Memory} (hw : m.wf size) {a : Nat} (ha : a < size) (v : Byte) :
    (Memory.write m a v).wf size := by
  refine ⟨?_, fun c hc => ?_⟩
  · have hs := hw.1
    clear hw
    induction m with
    | nil =>
      unfold Memory.write
      split <;> simp
    | cons d rest ih =>
      obtain ⟨k, w⟩ := d
      have hd := List.pairwise_cons.mp hs
      unfold Memory.write
      split
      · rename_i hak
        split
        · exact hs
        · refine List.pairwise_cons.mpr ⟨fun c hc => ?_, hs⟩
          rcases List.mem_cons.mp hc with rfl | hc
          · exact hak
          · exact Nat.lt_trans hak (hd.1 c hc)
      · split
        · rename_i hak
          subst hak
          split
          · exact hd.2
          · exact List.pairwise_cons.mpr ⟨hd.1, hd.2⟩
        · rename_i hlt hak
          refine List.pairwise_cons.mpr ⟨fun c hc => ?_, ih hd.2⟩
          rcases Memory.mem_write hc with hc | ⟨rfl, -⟩
          · exact hd.1 c hc
          · exact Nat.lt_of_le_of_ne (Nat.le_of_not_lt hlt) (Ne.symm hak)
  · rcases Memory.mem_write hc with hc | ⟨rfl, hv⟩
    · exact hw.2 c hc
    · exact ⟨hv, ha⟩

/-! ## Words -/

theorem Memory.readWord_eq (m : Memory) (a : Nat) : m.readWord a = joinBytes (m.read a) (m.read (a + 1)) := rfl

theorem Memory.writeWord_wf {size : Nat} {m : Memory} (hw : m.wf size) {a : Nat} (ha : a + 2 ≤ size)
    (v : Word) : (m.writeWord a v).wf size :=
  Memory.write_wf (Memory.write_wf hw (by omega) _) (by omega) _

theorem Memory.read_writeWord_hi {size : Nat} {m : Memory} (hw : m.wf size) {a : Nat} (v : Word) :
    (m.writeWord a v).read a = hiByte v := by
  rw [Memory.writeWord, Memory.read_write_ne _ _ (by omega), Memory.read_write_self_of_sorted hw.1]

theorem Memory.read_writeWord_lo {size : Nat} {m : Memory} (hw : m.wf size) {a : Nat} (ha : a + 1 ≤ size)
    (v : Word) : (m.writeWord a v).read (a + 1) = loByte v :=
  Memory.read_write_self_of_sorted (Memory.write_wf hw (by omega) _).1 _ _

theorem Memory.read_writeWord_ne (m : Memory) {a b : Nat} (v : Word) (h0 : b ≠ a) (h1 : b ≠ a + 1) :
    (m.writeWord a v).read b = m.read b := by
  rw [Memory.writeWord, Memory.read_write_ne _ _ h1, Memory.read_write_ne _ _ h0]

/-- The word stored is the word read (R54; the source's property S1). -/
theorem Memory.readWord_writeWord {size : Nat} {m : Memory} (hw : m.wf size) {a : Nat} (ha : a + 2 ≤ size)
    (v : Word) : (m.writeWord a v).readWord a = v := by
  rw [Memory.readWord_eq, Memory.read_writeWord_hi hw, Memory.read_writeWord_lo hw (by omega), joinBytes_hi_lo]

/-! ## Lists of bytes -/

theorem Memory.writeBytes_wf {size : Nat} {m : Memory} (hw : m.wf size) (a : Nat) (bs : List Byte) :
    (Memory.writeBytes size m a bs).wf size := by
  induction bs generalizing m a with
  | nil => exact hw
  | cons b rest ih =>
    unfold Memory.writeBytes
    refine ih ?_ (a + 1)
    split
    · exact Memory.write_wf hw ‹_› b
    · exact hw

theorem Memory.read_writeBytes_lt (size : Nat) (m : Memory) {a b : Nat} (bs : List Byte) (h : b < a) :
    (Memory.writeBytes size m a bs).read b = m.read b := by
  induction bs generalizing m a with
  | nil => rfl
  | cons c rest ih =>
    unfold Memory.writeBytes
    rw [ih _ (by omega)]
    split
    · exact Memory.read_write_ne _ _ (by omega)
    · rfl

/-- Bytes stored in bounds are read back. -/
theorem Memory.read_writeBytes {size : Nat} {m : Memory} (hw : m.wf size) (a : Nat) (bs : List Byte) {j : Nat}
    (hj : j < bs.length) (hs : a + bs.length ≤ size) :
    bs[j]? = some ((Memory.writeBytes size m a bs).read (a + j)) := by
  induction bs generalizing m a j with
  | nil => simp at hj
  | cons b rest ih =>
    simp only [List.length_cons] at hj hs
    have ha : a < size := by omega
    unfold Memory.writeBytes
    rw [if_pos ha]
    cases j with
    | zero =>
      rw [Memory.read_writeBytes_lt _ _ _ (by omega), Nat.add_zero, Memory.read_write_self hw]
      rfl
    | succ j =>
      rw [List.getElem?_cons_succ, ih (Memory.write_wf hw ha b) (a + 1) (by omega) (by omega)]
      congr 2
      omega

/-- The bytes of `ofBytes` lie from its address up, none of them 0. -/
theorem Memory.mem_ofBytes {a : Nat} {bs : List Byte} {c : Host.Cell} (h : c ∈ Memory.ofBytes a bs) :
    a ≤ c.1 ∧ c.1 < a + bs.length ∧ c.2 ≠ 0 := by
  induction bs generalizing a with
  | nil => simp [Memory.ofBytes] at h
  | cons b rest ih =>
    unfold Memory.ofBytes at h
    simp only [List.length_cons]
    split at h
    · obtain ⟨h1, h2, h3⟩ := ih h
      exact ⟨by omega, by omega, h3⟩
    · rcases List.mem_cons.mp h with rfl | h
      · exact ⟨Nat.le_refl _, by omega, ‹_›⟩
      · obtain ⟨h1, h2, h3⟩ := ih h
        exact ⟨by omega, by omega, h3⟩

theorem Memory.ofBytes_wf (bs : List Byte) : (Memory.ofBytes 0 bs).wf bs.length := by
  refine ⟨?_, fun c hc => ⟨(Memory.mem_ofBytes hc).2.2, by simpa using (Memory.mem_ofBytes hc).2.1⟩⟩
  generalize 0 = a
  induction bs generalizing a with
  | nil => simp [Memory.ofBytes]
  | cons b rest ih =>
    unfold Memory.ofBytes
    split
    · exact ih _
    · exact List.pairwise_cons.mpr ⟨fun c hc => (Memory.mem_ofBytes hc).1, ih _⟩

theorem Memory.read_ofBytes (a : Nat) (bs : List Byte) {j : Nat} (hj : j < bs.length) :
    bs[j]? = some ((Memory.ofBytes a bs).read (a + j)) := by
  induction bs generalizing a j with
  | nil => simp at hj
  | cons b rest ih =>
    unfold Memory.ofBytes
    cases j with
    | zero =>
      split
      · rename_i hb
        have h0 : (Memory.ofBytes (a + 1) rest).read a = 0 :=
          Memory.read_of_forall_lt fun c hc => (Memory.mem_ofBytes hc).1
        simp [h0, hb]
      · simp [Memory.read]
    | succ j =>
      have := ih (a + 1) (j := j) (by simpa using hj)
      have e : a + 1 + j = a + (j + 1) := by omega
      rw [e] at this
      rw [List.getElem?_cons_succ, this]
      split
      · rfl
      · simp [Memory.read]

end Sys2Proof.Machine
end

