-- ==== Sys2Proof/Laws/PerInstr.lean ====
section
/-! SUPPORT. Statements about every instruction as syntax, one lemma per constructor.
`EncodedLength`: the encoder emits as many bytes as the length table says, 1 to 5 (R76, R77). -/

namespace Sys2Proof.Laws.EncodedLength

/-- The encoding of an instruction has its table length, between 1 and 5 bytes, under every opcode map. -/
def Statement (i : Instr) : Prop :=
  ∀ m : OpcodeMap, (encode m i).length = i.length ∧ 1 ≤ i.length ∧ i.length ≤ 5

theorem movLitReg (literal : Word) (dst : Reg) : Statement (.movLitReg literal dst) :=
  fun _ => by simp [encode, Instr.length]
theorem movRegReg (src dst : Reg) : Statement (.movRegReg src dst) :=
  fun _ => by simp [encode, Instr.length]
theorem movRegMem (src : Reg) (address : Word) : Statement (.movRegMem src address) :=
  fun _ => by simp [encode, Instr.length]
theorem movMemReg (address : Word) (dst : Reg) : Statement (.movMemReg address dst) :=
  fun _ => by simp [encode, Instr.length]
theorem addRegReg (ord1 ord2 : Byte) : Statement (.addRegReg ord1 ord2) :=
  fun _ => by simp [encode, Instr.length]
theorem jmpNotEq (value address : Word) : Statement (.jmpNotEq value address) :=
  fun _ => by simp [encode, Instr.length]
theorem pshLit (value : Word) : Statement (.pshLit value) :=
  fun _ => by simp [encode, Instr.length]
theorem pshReg (src : Reg) : Statement (.pshReg src) :=
  fun _ => by simp [encode, Instr.length]
theorem pop (dst : Reg) : Statement (.pop dst) :=
  fun _ => by simp [encode, Instr.length]
theorem calLit (address : Word) : Statement (.calLit address) :=
  fun _ => by simp [encode, Instr.length]
theorem calReg (src : Reg) : Statement (.calReg src) :=
  fun _ => by simp [encode, Instr.length]
theorem ret : Statement .ret :=
  fun _ => by simp [encode, Instr.length]
theorem unassigned (opcode : Byte) : Statement (.unassigned opcode) :=
  fun _ => by simp [encode, Instr.length]

end Sys2Proof.Laws.EncodedLength
end

