-- ==== Sys2Proof/Laws/State.lean ====
section
/-! SUPPORT. What each update of the state leaves in each field, and the laws of the register file. -/

namespace Sys2Proof.Machine

@[simp] theorem RegFile.read_write_self (f : RegFile) (r : Reg) (v : Word) : (f.write r v).read r = v := by
  cases r <;> rfl

theorem RegFile.read_write_ne (f : RegFile) {r q : Reg} (v : Word) (h : q ≠ r) :
    (f.write r v).read q = f.read q := by
  cases r <;> cases q <;> first | rfl | exact absurd rfl h

/-- Two register files that read alike are equal. -/
theorem RegFile.ext_read {f g : RegFile} (h : ∀ r, f.read r = g.read r) : f = g := by
  cases f
  cases g
  simp only [RegFile.mk.injEq]
  exact ⟨h .ip, h .acc, h .r1, h .r2, h .r3, h .r4, h .r5, h .r6, h .r7, h .r8, h .sp, h .fp⟩

/-! ## setReg -/

@[simp] theorem State.setReg_cfg (s : State) (r : Reg) (v : Word) : (s.setReg r v).cfg = s.cfg := rfl
@[simp] theorem State.setReg_regs (s : State) (r : Reg) (v : Word) :
    (s.setReg r v).regs = s.regs.write r v := rfl
@[simp] theorem State.setReg_cnt (s : State) (r : Reg) (v : Word) : (s.setReg r v).cnt = s.cnt := rfl
@[simp] theorem State.setReg_mem (s : State) (r : Reg) (v : Word) : (s.setReg r v).mem = s.mem := rfl
@[simp] theorem State.setReg_engine (s : State) (r : Reg) (v : Word) : (s.setReg r v).engine = s.engine := rfl
@[simp] theorem State.setReg_fault (s : State) (r : Reg) (v : Word) : (s.setReg r v).fault = s.fault := rfl
@[simp] theorem State.setReg_instrStart (s : State) (r : Reg) (v : Word) :
    (s.setReg r v).instrStart = s.instrStart := rfl

/-- A register read after a register write. -/
@[simp] theorem State.reg_setReg (s : State) (r q : Reg) (v : Word) :
    (s.setReg r v).reg q = if q = r then v else s.reg q := by
  by_cases h : q = r
  · subst h
    simp [State.reg, State.setReg]
  · simp [State.reg, State.setReg, RegFile.read_write_ne _ _ h, h]

/-! ## setCnt -/

@[simp] theorem State.setCnt_cfg (s : State) (v : Word) : (s.setCnt v).cfg = s.cfg := rfl
@[simp] theorem State.setCnt_regs (s : State) (v : Word) : (s.setCnt v).regs = s.regs := rfl
@[simp] theorem State.setCnt_cnt (s : State) (v : Word) : (s.setCnt v).cnt = v := rfl
@[simp] theorem State.setCnt_mem (s : State) (v : Word) : (s.setCnt v).mem = s.mem := rfl
@[simp] theorem State.setCnt_engine (s : State) (v : Word) : (s.setCnt v).engine = s.engine := rfl
@[simp] theorem State.setCnt_fault (s : State) (v : Word) : (s.setCnt v).fault = s.fault := rfl
@[simp] theorem State.setCnt_instrStart (s : State) (v : Word) : (s.setCnt v).instrStart = s.instrStart := rfl
@[simp] theorem State.reg_setCnt (s : State) (v : Word) (q : Reg) : (s.setCnt v).reg q = s.reg q := rfl

/-! ## setMem -/

@[simp] theorem State.setMem_cfg (s : State) (m : Memory) : (s.setMem m).cfg = s.cfg := rfl
@[simp] theorem State.setMem_regs (s : State) (m : Memory) : (s.setMem m).regs = s.regs := rfl
@[simp] theorem State.setMem_cnt (s : State) (m : Memory) : (s.setMem m).cnt = s.cnt := rfl
@[simp] theorem State.setMem_mem (s : State) (m : Memory) : (s.setMem m).mem = m := rfl
@[simp] theorem State.setMem_engine (s : State) (m : Memory) : (s.setMem m).engine = s.engine := rfl
@[simp] theorem State.setMem_fault (s : State) (m : Memory) : (s.setMem m).fault = s.fault := rfl
@[simp] theorem State.setMem_instrStart (s : State) (m : Memory) : (s.setMem m).instrStart = s.instrStart := rfl
@[simp] theorem State.reg_setMem (s : State) (m : Memory) (q : Reg) : (s.setMem m).reg q = s.reg q := rfl

/-! ## setStart -/

@[simp] theorem State.setStart_cfg (s : State) (v : Word) : (s.setStart v).cfg = s.cfg := rfl
@[simp] theorem State.setStart_regs (s : State) (v : Word) : (s.setStart v).regs = s.regs := rfl
@[simp] theorem State.setStart_cnt (s : State) (v : Word) : (s.setStart v).cnt = s.cnt := rfl
@[simp] theorem State.setStart_mem (s : State) (v : Word) : (s.setStart v).mem = s.mem := rfl
@[simp] theorem State.setStart_engine (s : State) (v : Word) : (s.setStart v).engine = s.engine := rfl
@[simp] theorem State.setStart_fault (s : State) (v : Word) : (s.setStart v).fault = s.fault := rfl
@[simp] theorem State.setStart_instrStart (s : State) (v : Word) : (s.setStart v).instrStart = v := rfl
@[simp] theorem State.reg_setStart (s : State) (v : Word) (q : Reg) : (s.setStart v).reg q = s.reg q := rfl
@[simp] theorem State.setStart_setStart (s : State) (v w : Word) :
    (s.setStart v).setStart w = s.setStart w := rfl

/-! ## takeFault -/

@[simp] theorem State.takeFault_cfg (s : State) (f : FaultInfo) : (s.takeFault f).cfg = s.cfg := rfl
@[simp] theorem State.takeFault_regs (s : State) (f : FaultInfo) : (s.takeFault f).regs = s.regs := rfl
@[simp] theorem State.takeFault_cnt (s : State) (f : FaultInfo) : (s.takeFault f).cnt = s.cnt := rfl
@[simp] theorem State.takeFault_mem (s : State) (f : FaultInfo) : (s.takeFault f).mem = s.mem := rfl
@[simp] theorem State.takeFault_engine (s : State) (f : FaultInfo) : (s.takeFault f).engine = .faulted := rfl
@[simp] theorem State.takeFault_fault (s : State) (f : FaultInfo) :
    (s.takeFault f).fault = f.record s.instrStart := rfl
@[simp] theorem State.takeFault_instrStart (s : State) (f : FaultInfo) :
    (s.takeFault f).instrStart = s.instrStart := rfl
@[simp] theorem State.reg_takeFault (s : State) (f : FaultInfo) (q : Reg) : (s.takeFault f).reg q = s.reg q := rfl

/-! ## Results -/

@[simp] theorem Res.bind_ok {α β : Type} (a : α) (s : State) (k : α → State → Res β) :
    (Res.ok a s).bind k = k a s := rfl
@[simp] theorem Res.bind_faulted {α β : Type} (s : State) (k : α → State → Res β) :
    (Res.faulted s : Res α).bind k = .faulted s := rfl
@[simp] theorem Res.toOutcome_ok (u : Unit) (s : State) : (Res.ok u s).toOutcome = .next s := rfl
@[simp] theorem Res.toOutcome_faulted (s : State) : (Res.faulted s : Res Unit).toOutcome = .next s := rfl

/-- A sequence of two runs that answers a value went through a value of the first. -/
theorem Res.bind_eq_ok {α β : Type} {r : Res α} {k : α → State → Res β} {b : β} {t : State}
    (h : r.bind k = .ok b t) : ∃ a s, r = .ok a s ∧ k a s = .ok b t := by
  cases r with
  | ok a s => exact ⟨a, s, rfl, h⟩
  | faulted s => cases h

/-- A sequence of two that faults did so in the first or in the second. -/
theorem Res.bind_eq_faulted {α β : Type} {r : Res α} {k : α → State → Res β} {t : State}
    (h : r.bind k = .faulted t) : r = .faulted t ∨ ∃ a s, r = .ok a s ∧ k a s = .faulted t := by
  cases r with
  | ok a s => exact .inr ⟨a, s, rfl, h⟩
  | faulted s =>
    cases h
    exact .inl rfl

end Sys2Proof.Machine
end

