-- ==== Sys2Proof/Laws/Port.lean ====
section
/-! SUPPORT. What the memory port, the stream readers, push and pop answer: one equation for an access in
bounds and one for an access that faults. -/

namespace Sys2Proof.Machine

/-! ## Memory port -/

theorem read8_ok {a : Word} {s : State} (h : s.inBounds a 1) : read8 a s = .ok (s.mem.read a.toNat) s :=
  if_pos h

theorem read8_fault {a : Word} {s : State} (h : ¬ s.inBounds a 1) :
    read8 a s = .faulted (s.takeFault (.invalidAddress a 1 .fetch)) :=
  if_neg h

theorem read16_ok {k : AccessKind} {a : Word} {s : State} (h : s.inBounds a 2) :
    read16 k a s = .ok (s.mem.readWord a.toNat) s :=
  if_pos h

theorem read16_fault {k : AccessKind} {a : Word} {s : State} (h : ¬ s.inBounds a 2) :
    read16 k a s = .faulted (s.takeFault (.invalidAddress a 2 k)) :=
  if_neg h

theorem write16_ok {a v : Word} {s : State} (h : s.inBounds a 2) :
    write16 a v s = .ok () (s.setMem (s.mem.writeWord a.toNat v)) :=
  if_pos h

theorem write16_fault {a v : Word} {s : State} (h : ¬ s.inBounds a 2) :
    write16 a v s = .faulted (s.takeFault (.invalidAddress a 2 .write)) :=
  if_neg h

/-! ## Stream readers -/

theorem fetch_ok {s : State} (h : s.inBounds (s.reg .ip) 1) :
    fetch s = .ok (s.mem.read (s.reg .ip).toNat) (s.setReg .ip (s.reg .ip + 1)) := by
  rw [fetch, read8_ok h, Res.bind_ok]

theorem fetch_fault {s : State} (h : ¬ s.inBounds (s.reg .ip) 1) :
    fetch s = .faulted (s.takeFault (.invalidAddress (s.reg .ip) 1 .fetch)) := by
  rw [fetch, read8_fault h, Res.bind_faulted]

theorem fetch16_ok {s : State} (h : s.inBounds (s.reg .ip) 2) :
    fetch16 s = .ok (s.mem.readWord (s.reg .ip).toNat) (s.setReg .ip (s.reg .ip + 2)) := by
  rw [fetch16, read16_ok h, Res.bind_ok]

theorem fetch16_fault {s : State} (h : ¬ s.inBounds (s.reg .ip) 2) :
    fetch16 s = .faulted (s.takeFault (.invalidAddress (s.reg .ip) 2 .fetch)) := by
  rw [fetch16, read16_fault h, Res.bind_faulted]

theorem fetchRegisterIndex_ok {s : State} (h : s.inBounds (s.reg .ip) 1) :
    fetchRegisterIndex s =
      .ok (selectReg (s.mem.read (s.reg .ip).toNat)) (s.setReg .ip (s.reg .ip + 1)) := by
  rw [fetchRegisterIndex, fetch_ok h, Res.bind_ok]

theorem fetchRegisterIndex_fault {s : State} (h : ¬ s.inBounds (s.reg .ip) 1) :
    fetchRegisterIndex s = .faulted (s.takeFault (.invalidAddress (s.reg .ip) 1 .fetch)) := by
  rw [fetchRegisterIndex, fetch_fault h, Res.bind_faulted]

theorem readOrdinal_ok (r : Reg) {n : Byte} (h : n.toNat = r.ordinal) (s : State) :
    readOrdinal n s = .ok (s.reg r) s := by
  simp [readOrdinal, h]

theorem readOrdinal_fault {n : Byte} (h : 12 ≤ n.toNat) (s : State) :
    readOrdinal n s = .faulted (s.takeFault (.unknownRegister n)) := by
  simp [readOrdinal, Reg.ofOrdinal_of_ge h, raise]

/-! ## Push and pop -/

theorem push_ok {v : Word} {s : State} (h : s.inBounds (s.reg .sp) 2) :
    push v s = .ok () (((s.setMem (s.mem.writeWord (s.reg .sp).toNat v)).setReg .sp (s.reg .sp - 2)).setCnt
      (s.cnt + 2)) := by
  rw [push, write16_ok h, Res.bind_ok]
  rfl

theorem push_fault {v : Word} {s : State} (h : ¬ s.inBounds (s.reg .sp) 2) :
    push v s = .faulted (s.takeFault (.invalidAddress (s.reg .sp) 2 .write)) := by
  rw [push, write16_fault h, Res.bind_faulted]

theorem pop_ok {s : State} (h : s.inBounds (s.reg .sp + 2) 2) :
    pop s = .ok (s.mem.readWord (s.reg .sp + 2).toNat)
      ((s.setReg .sp (s.reg .sp + 2)).setCnt (s.cnt - 2)) := by
  rw [pop, read16_ok (by simpa [State.inBounds] using h)]
  rfl

theorem pop_fault {s : State} (h : ¬ s.inBounds (s.reg .sp + 2) 2) :
    pop s = .faulted (((s.setReg .sp (s.reg .sp + 2)).setCnt (s.cnt - 2)).takeFault
      (.invalidAddress (s.reg .sp + 2) 2 .read)) := by
  rw [pop, read16_fault (by simpa [State.inBounds] using h)]

/-! ## What any operation can do -/

/-- From `s`, an operation that did not fault: parameters, step state, record and latch stand, and a canonical
memory stays canonical. -/
structure Goes (s t : State) : Prop where
  cfg        : t.cfg = s.cfg
  instrStart : t.instrStart = s.instrStart
  engine     : t.engine = s.engine
  fault      : t.fault = s.fault
  memWf      : Memory.wf s.cfg.memSize s.mem → Memory.wf s.cfg.memSize t.mem

/-- From `s`, an operation that faulted: as `Goes`, but FAULTED with a legal record of this step. -/
structure Faults (s t : State) : Prop where
  cfg        : t.cfg = s.cfg
  instrStart : t.instrStart = s.instrStart
  engine     : t.engine = .faulted
  legal      : t.fault.legal s.cfg.memSize
  instrAddr  : t.fault.instrAddr = s.instrStart
  memWf      : Memory.wf s.cfg.memSize s.mem → Memory.wf s.cfg.memSize t.mem

/-- A result is one of the two. -/
def Res.Sound {α : Type} (s : State) : Res α → Prop
  | .ok _ t => Goes s t
  | .faulted t => Faults s t

theorem Goes.refl (s : State) : Goes s s := ⟨rfl, rfl, rfl, rfl, id⟩

theorem Goes.trans {s t u : State} (h : Goes s t) (k : Goes t u) : Goes s u where
  cfg := k.cfg.trans h.cfg
  instrStart := k.instrStart.trans h.instrStart
  engine := k.engine.trans h.engine
  fault := k.fault.trans h.fault
  memWf := fun w => h.cfg ▸ k.memWf (h.cfg.symm ▸ h.memWf w)

theorem Goes.transFaults {s t u : State} (h : Goes s t) (k : Faults t u) : Faults s u where
  cfg := k.cfg.trans h.cfg
  instrStart := k.instrStart.trans h.instrStart
  engine := k.engine
  legal := h.cfg ▸ k.legal
  instrAddr := k.instrAddr.trans h.instrStart
  memWf := fun w => h.cfg ▸ k.memWf (h.cfg.symm ▸ h.memWf w)

theorem Goes.setReg (s : State) (r : Reg) (v : Word) : Goes s (s.setReg r v) := ⟨rfl, rfl, rfl, rfl, id⟩

theorem Goes.setCnt (s : State) (v : Word) : Goes s (s.setCnt v) := ⟨rfl, rfl, rfl, rfl, id⟩

/-- A sequence of sound operations is sound. -/
theorem Res.Sound.bind {α β : Type} {s : State} {r : Res α} {k : α → State → Res β} (h : r.Sound s)
    (hk : ∀ a t, r = .ok a t → (k a t).Sound t) : (r.bind k).Sound s := by
  cases r with
  | faulted t => exact h
  | ok a t =>
    have hk' := hk a t rfl
    rw [Res.bind_ok]
    cases hr : k a t with
    | ok b u =>
      rw [hr] at hk'
      exact Goes.trans h hk'
    | faulted u =>
      rw [hr] at hk'
      exact Goes.transFaults h hk'

/-- An operation that is sound from a state with the same parameters and latch, reached without a fault. -/
theorem Res.Sound.after {α : Type} {s t : State} {r : Res α} (h : Goes s t) (k : r.Sound t) : r.Sound s := by
  cases r with
  | ok a u => exact Goes.trans h k
  | faulted u => exact Goes.transFaults h k

theorem Faults.invalidAddress {s : State} {a : Word} {n : Nat} {k : AccessKind} (h : ¬ s.inBounds a n)
    (hn : n = 2 ∨ (n = 1 ∧ k = .fetch)) : Faults s (s.takeFault (.invalidAddress a n k)) where
  cfg := rfl
  instrStart := rfl
  engine := rfl
  legal := by
    rw [State.inBounds, Nat.not_le] at h
    refine .inl ⟨rfl, ?_, ?_⟩
    · rcases hn with rfl | ⟨rfl, -⟩ <;> exact h
    · rcases hn with rfl | ⟨rfl, rfl⟩
      · cases k
        · exact .inl ⟨rfl, .inr rfl⟩
        · exact .inr ⟨.inl rfl, rfl⟩
        · exact .inr ⟨.inr rfl, rfl⟩
      · exact .inl ⟨rfl, .inl rfl⟩
  instrAddr := rfl
  memWf := id

theorem Faults.unknownRegister {s : State} {n : Byte} (h : 12 ≤ n.toNat) :
    Faults s (s.takeFault (.unknownRegister n)) where
  cfg := rfl
  instrStart := rfl
  engine := rfl
  legal := by
    have e : (n.setWidth 16).toNat = n.toNat := by
      rw [BitVec.toNat_setWidth]
      exact Nat.mod_eq_of_lt (Nat.lt_trans n.isLt (by decide))
    refine .inr ⟨rfl, rfl, rfl, ?_, ?_⟩
    · exact e ▸ h
    · exact e ▸ n.isLt
  instrAddr := rfl
  memWf := id

theorem read8_sound (a : Word) (s : State) : (read8 a s).Sound s := by
  by_cases h : s.inBounds a 1
  · rw [read8_ok h]
    exact Goes.refl s
  · rw [read8_fault h]
    exact Faults.invalidAddress h (.inr ⟨rfl, rfl⟩)

theorem read16_sound (k : AccessKind) (a : Word) (s : State) : (read16 k a s).Sound s := by
  by_cases h : s.inBounds a 2
  · rw [read16_ok h]
    exact Goes.refl s
  · rw [read16_fault h]
    exact Faults.invalidAddress h (.inl rfl)

theorem write16_sound (a v : Word) (s : State) : (write16 a v s).Sound s := by
  by_cases h : s.inBounds a 2
  · rw [write16_ok h]
    exact ⟨rfl, rfl, rfl, rfl, fun w => Memory.writeWord_wf w h v⟩
  · rw [write16_fault h]
    exact Faults.invalidAddress h (.inl rfl)

theorem fetch_sound (s : State) : (fetch s).Sound s :=
  (read8_sound _ s).bind fun _ t _ => Goes.setReg t _ _

theorem fetch16_sound (s : State) : (fetch16 s).Sound s :=
  (read16_sound _ _ s).bind fun _ t _ => Goes.setReg t _ _

theorem fetchRegisterIndex_sound (s : State) : (fetchRegisterIndex s).Sound s :=
  (fetch_sound s).bind fun _ t _ => Goes.refl t

theorem readOrdinal_sound (n : Byte) (s : State) : (readOrdinal n s).Sound s := by
  by_cases h : 12 ≤ n.toNat
  · rw [readOrdinal_fault h]
    exact Faults.unknownRegister h
  · obtain ⟨r, -, hr⟩ := Reg.ofOrdinal_of_lt (Nat.lt_of_not_le h)
    rw [readOrdinal_ok r hr.symm]
    exact Goes.refl s

theorem push_sound (v : Word) (s : State) : (push v s).Sound s :=
  (write16_sound _ v s).bind fun _ t _ => (Goes.setReg t _ _).trans (Goes.setCnt _ _)

theorem pop_sound (s : State) : (pop s).Sound s :=
  Res.Sound.after ((Goes.setReg s _ _).trans (Goes.setCnt _ _)) (read16_sound _ _ _)

end Sys2Proof.Machine
end

