-- ==== Sys2Proof/Laws/StackFrame.lean ====
section
/-! SUPPORT. What runs of pushes and pops answer, and with them push_state and pop_state. -/

namespace Sys2Proof.Machine

/-- `2 * n` as a word: how far `n` pushes or pops move `sp` and `cnt`. -/
def twice (n : Nat) : Word := BitVec.ofNat 16 (2 * n)

@[simp] theorem twice_zero : twice 0 = 0 := rfl

theorem twice_succ (n : Nat) : twice (n + 1) = twice n + 2 := by
  rw [twice, Nat.mul_succ, BitVec.ofNat_add]
  rfl

theorem twice_succ' (n : Nat) : twice (n + 1) = 2 + twice n := by rw [twice_succ, BitVec.add_comm]

/-! ## Pushes -/

/-- Push words in order. -/
def pushWords : List Word → State → Res Unit
  | [], s => .ok () s
  | v :: rest, s => (push v s).bind fun _ t => pushWords rest t

/-- Memory after words are stored from an address down. -/
def pushedMem : Memory → Word → List Word → Memory
  | m, _, [] => m
  | m, a, v :: rest => pushedMem (m.writeWord a.toNat v) (a - 2) rest

/-- The state after words are pushed with no fault. -/
def pushed (s : State) (vs : List Word) : State :=
  ((s.setMem (pushedMem s.mem (s.reg .sp) vs)).setReg .sp (s.reg .sp - twice vs.length)).setCnt
    (s.cnt + twice vs.length)

theorem State.ext_read {s t : State} (hc : s.cfg = t.cfg) (hr : ∀ r, s.reg r = t.reg r) (hn : s.cnt = t.cnt)
    (hm : s.mem = t.mem) (he : s.engine = t.engine) (hf : s.fault = t.fault)
    (hi : s.instrStart = t.instrStart) : s = t := by
  cases s
  cases t
  simp only [State.mk.injEq]
  exact ⟨hc, RegFile.ext_read hr, hn, hm, he, hf, hi⟩

@[simp] theorem pushed_nil (s : State) : pushed s [] = s := by
  refine State.ext_read rfl (fun r => ?_) ?_ rfl rfl rfl rfl
  · by_cases h : r = .sp
    · subst h
      simp [pushed]
    · simp [pushed, h]
  · simp [pushed]

theorem pushed_cons (s : State) (v : Word) (vs : List Word) :
    pushed s (v :: vs) = pushed (((s.setMem (s.mem.writeWord (s.reg .sp).toNat v)).setReg .sp
      (s.reg .sp - 2)).setCnt (s.cnt + 2)) vs := by
  refine State.ext_read rfl (fun r => ?_) ?_ ?_ rfl rfl rfl
  · by_cases h : r = .sp
    · subst h
      simp only [pushed, List.length_cons, State.reg_setCnt, State.reg_setReg, if_true, twice_succ']
      rw [BitVec.sub_sub]
    · simp [pushed, h]
  · simp only [pushed, List.length_cons, State.setCnt_cnt, twice_succ', BitVec.add_assoc]
  · simp [pushed, pushedMem]

/-- Pushes that are all in bounds. -/
theorem pushWords_ok {vs : List Word} {s : State}
    (h : ∀ j, j < vs.length → s.inBounds (s.reg .sp - twice j) 2) : pushWords vs s = .ok () (pushed s vs) := by
  induction vs generalizing s with
  | nil => rw [pushWords, pushed_nil]
  | cons v rest ih =>
    rw [pushWords, push_ok (by simpa using h 0 (by simp)), Res.bind_ok, ih, pushed_cons]
    intro j hj
    have := h (j + 1) (by simpa using hj)
    rw [twice_succ', ← BitVec.sub_sub] at this
    simpa [State.inBounds] using this

/-- Pushes whose `j`-th is the first out of bounds. -/
theorem pushWords_fault {vs : List Word} {s : State} {j : Nat} (hj : j < vs.length)
    (h : ∀ k, k < j → s.inBounds (s.reg .sp - twice k) 2) (hn : ¬ s.inBounds (s.reg .sp - twice j) 2) :
    pushWords vs s =
      .faulted ((pushed s (vs.take j)).takeFault (.invalidAddress (s.reg .sp - twice j) 2 .write)) := by
  induction vs generalizing s j with
  | nil => simp at hj
  | cons v rest ih =>
    cases j with
    | zero =>
      have hn' : ¬ s.inBounds (s.reg .sp) 2 := by simpa using hn
      rw [pushWords, push_fault hn', Res.bind_faulted]
      simp
    | succ j =>
      rw [pushWords, push_ok (by simpa using h 0 (by omega)), Res.bind_ok, List.take_succ_cons, pushed_cons]
      rw [ih (j := j) (by simpa using hj)]
      · simp [twice_succ', BitVec.sub_sub]
      · intro k hk
        have := h (k + 1) (by omega)
        rw [twice_succ', ← BitVec.sub_sub] at this
        simpa [State.inBounds] using this
      · rw [twice_succ', ← BitVec.sub_sub] at hn
        simpa [State.inBounds] using hn

theorem pushWords_append (vs ws : List Word) (s : State) :
    pushWords (vs ++ ws) s = (pushWords vs s).bind fun _ t => pushWords ws t := by
  induction vs generalizing s with
  | nil => rfl
  | cons v rest ih =>
    rw [List.cons_append, pushWords, pushWords]
    cases push v s with
    | ok u t => rw [Res.bind_ok, Res.bind_ok, ih]
    | faulted t => rfl

/-- Pushes change no byte outside their words. -/
theorem pushedMem_other (m : Memory) (a : Word) (vs : List Word) (b : Nat)
    (h : ∀ j, j < vs.length → b ≠ (a - twice j).toNat ∧ b ≠ (a - twice j).toNat + 1) :
    (pushedMem m a vs).read b = m.read b := by
  induction vs generalizing m a with
  | nil => rfl
  | cons v vs ih =>
    rw [pushedMem, ih]
    · have := h 0 (by simp)
      simp at this
      exact Memory.read_writeWord_ne _ _ this.1 this.2
    · intro j hj
      have := h (j + 1) (by simpa using hj)
      rwa [twice_succ', ← BitVec.sub_sub] at this

theorem pushedMem_wf {size : Nat} (m : Memory) (a : Word) (vs : List Word) (hw : m.wf size)
    (h : ∀ j, j < vs.length → (a - twice j).toNat + 2 ≤ size) : (pushedMem m a vs).wf size := by
  induction vs generalizing m a with
  | nil => exact hw
  | cons v vs ih =>
    rw [pushedMem]
    have h0 := h 0 (by simp)
    simp at h0
    refine ih _ _ (Memory.writeWord_wf hw h0 v) fun j hj => ?_
    have := h (j + 1) (by simpa using hj)
    rwa [twice_succ', ← BitVec.sub_sub] at this

/-- The words of different pushes do not overlap. -/
theorem twice_sub_ne (a : Word) {i j : Nat} (hij : i < j) (hj : j ≤ 32767) :
    (a - twice i).toNat ≠ (a - twice j).toNat ∧ (a - twice i).toNat ≠ (a - twice j).toNat + 1 ∧
    (a - twice i).toNat + 1 ≠ (a - twice j).toNat := by
  simp only [BitVec.toNat_sub, twice, BitVec.toNat_ofNat]
  have := a.isLt
  omega

/-- Pushes that are in bounds leave each word at its place. -/
theorem pushedMem_at {size : Nat} (m : Memory) (a : Word) (vs : List Word) (hw : m.wf size)
    (h : ∀ j, j < vs.length → (a - twice j).toNat + 2 ≤ size) (hl : vs.length ≤ 32767) {j : Nat} {v : Word}
    (hv : vs[j]? = some v) :
    (pushedMem m a vs).read (a - twice j).toNat = hiByte v ∧
    (pushedMem m a vs).read ((a - twice j).toNat + 1) = loByte v := by
  induction vs generalizing m a j with
  | nil => simp at hv
  | cons w vs ih =>
    have h0 := h 0 (by simp)
    simp at h0
    rw [pushedMem]
    cases j with
    | zero =>
      simp at hv
      subst hv
      have e0 : a - twice 0 = a := by simp
      rw [pushedMem_other, pushedMem_other, e0]
      · exact ⟨Memory.read_writeWord_hi hw _, Memory.read_writeWord_lo hw (by omega) _⟩
      all_goals
        intro k hk
        rw [show a - 2 - twice k = a - twice (k + 1) by rw [twice_succ', BitVec.sub_sub]]
        have := twice_sub_ne a (i := 0) (j := k + 1) (by omega) (by simp at hl; omega)
        simp at this ⊢
        omega
    | succ j =>
      have := ih (m.writeWord a.toNat w) (a - 2) (Memory.writeWord_wf hw h0 w) (fun k hk => by
        have := h (k + 1) (by simpa using hk)
        rwa [twice_succ', ← BitVec.sub_sub] at this) (by simp at hl; omega) (j := j) (by simpa using hv)
      rwa [BitVec.sub_sub, ← twice_succ'] at this

/-- A push changes no register but `sp`. -/
theorem reg_of_push {v : Word} {s t : State} (h : push v s = .ok () t) {r : Reg} (hr : r ≠ .sp) :
    t.reg r = s.reg r := by
  by_cases hb : s.inBounds (s.reg .sp) 2
  · rw [push_ok hb] at h
    cases h
    simp [hr]
  · rw [push_fault hb] at h
    cases h

/-- Pushing registers other than `sp` pushes the values they have at the start. -/
theorem pushRegs_eq {rs : List Reg} (hsp : .sp ∉ rs) (s : State) :
    pushRegs rs s = pushWords (rs.map s.reg) s := by
  induction rs generalizing s with
  | nil => rfl
  | cons r rest ih =>
    rw [pushRegs, List.map_cons, pushWords]
    cases hp : push (s.reg r) s with
    | faulted t => rfl
    | ok u t =>
      rw [Res.bind_ok, Res.bind_ok, ih fun hr => hsp (List.mem_cons_of_mem _ hr)]
      congr 1
      refine List.map_congr_left fun q hq => reg_of_push hp fun e => hsp ?_
      exact List.mem_cons_of_mem _ (e ▸ hq)

/-- The counter after pushes that did not fault. -/
theorem cnt_of_pushWords {vs : List Word} {s t : State} (h : pushWords vs s = .ok () t) :
    t.cnt = s.cnt + twice vs.length := by
  induction vs generalizing s with
  | nil =>
    cases h
    simp
  | cons v rest ih =>
    rw [pushWords] at h
    obtain ⟨u, s', hp, hr⟩ := Res.bind_eq_ok h
    rw [ih hr]
    by_cases hb : s.inBounds (s.reg .sp) 2
    · rw [push_ok hb] at hp
      cases hp
      simp [twice_succ', BitVec.add_assoc]
    · rw [push_fault hb] at hp
      cases hp

/-- The ten words of a frame (R190, R197). -/
def frame (s : State) : List Word := savedRegs.map s.reg ++ [s.cnt + 20]

/-- push_state is ten pushes and the new frame base. -/
theorem pushState_eq (s : State) :
    pushState s = (pushWords (frame s) s).bind fun _ u => .ok () ((u.setReg .fp (u.reg .sp)).setCnt 0) := by
  rw [pushState, pushRegs_eq (by decide), frame, pushWords_append]
  cases hp : pushWords (savedRegs.map s.reg) s with
  | faulted t => rfl
  | ok u t =>
    have hc : t.cnt + 2 = s.cnt + 20 := by
      rw [cnt_of_pushWords hp, BitVec.add_assoc]
      rfl
    rw [Res.bind_ok, Res.bind_ok, pushWords, hc]
    cases push (s.cnt + 20) t <;> rfl

/-! ## Pops -/

/-- The state after `n` pops with no fault, less what is done with the words. -/
def popped (s : State) (n : Nat) : State :=
  (s.setReg .sp (s.reg .sp + twice n)).setCnt (s.cnt - twice n)

theorem popped_succ (s : State) (n : Nat) :
    popped ((s.setReg .sp (s.reg .sp + 2)).setCnt (s.cnt - 2)) n = popped s (n + 1) := by
  refine State.ext_read rfl (fun r => ?_) ?_ rfl rfl rfl rfl
  · by_cases h : r = .sp
    · subst h
      simp [popped, twice_succ', BitVec.add_assoc]
    · simp [popped, h]
  · simp [popped, twice_succ', BitVec.sub_sub]

@[simp] theorem popped_zero (s : State) : popped s 0 = s := by
  refine State.ext_read rfl (fun r => ?_) ?_ rfl rfl rfl rfl
  · by_cases h : r = .sp
    · subst h
      simp [popped]
    · simp [popped, h]
  · simp [popped]

theorem dropWords_ok {n : Nat} {s : State}
    (h : ∀ j, 1 ≤ j → j ≤ n → s.inBounds (s.reg .sp + twice j) 2) : dropWords n s = .ok () (popped s n) := by
  induction n generalizing s with
  | zero => rw [dropWords, popped_zero]
  | succ n ih =>
    rw [dropWords, pop_ok (by simpa [twice] using h 1 (by omega) (by omega)), Res.bind_ok, ih, popped_succ]
    intro j h1 hj
    have := h (j + 1) (by omega) (by omega)
    rw [twice_succ', ← BitVec.add_assoc] at this
    simpa [State.inBounds] using this

theorem dropWords_fault {n j : Nat} {s : State} (h1 : 1 ≤ j) (hj : j ≤ n)
    (h : ∀ k, 1 ≤ k → k < j → s.inBounds (s.reg .sp + twice k) 2)
    (hn : ¬ s.inBounds (s.reg .sp + twice j) 2) :
    dropWords n s =
      .faulted ((popped s j).takeFault (.invalidAddress (s.reg .sp + twice j) 2 .read)) := by
  induction n generalizing s j with
  | zero => omega
  | succ n ih =>
    obtain ⟨j, rfl⟩ := Nat.exists_eq_add_of_le' h1
    rw [dropWords]
    cases j with
    | zero =>
      rw [pop_fault (by simpa [twice] using hn), Res.bind_faulted]
      rfl
    | succ j =>
      rw [pop_ok (by simpa [twice] using h 1 (by omega) (by omega)), Res.bind_ok,
        ih (j := j + 1) (by omega) (by omega), popped_succ]
      · simp [twice_succ' (j + 1), BitVec.add_assoc]
      · intro k h1 hk
        have := h (k + 1) (by omega) (by omega)
        rw [twice_succ', ← BitVec.add_assoc] at this
        simpa [State.inBounds] using this
      · rw [twice_succ', ← BitVec.add_assoc] at hn
        simpa [State.inBounds] using hn

/-- The state after registers are restored by pops that did not fault (R191). -/
def restored : List Reg → State → State
  | [], s => s
  | r :: rest, s =>
    restored rest (((s.setReg .sp (s.reg .sp + 2)).setCnt (s.cnt - 2)).setReg r
      (s.mem.readWord (s.reg .sp + 2).toNat))

/-- What restoring registers other than `sp` leaves: `sp` and `cnt` moved once for each, every other register
as it was, each restored register at its word, and memory and control untouched. -/
theorem restored_spec (rs : List Reg) (s : State) (hsp : .sp ∉ rs) (hn : rs.Nodup) :
    (restored rs s).reg .sp = s.reg .sp + twice rs.length ∧
    (restored rs s).cnt = s.cnt - twice rs.length ∧
    (restored rs s).mem = s.mem ∧ (restored rs s).cfg = s.cfg ∧ (restored rs s).engine = s.engine ∧
    (restored rs s).fault = s.fault ∧ (restored rs s).instrStart = s.instrStart ∧
    (∀ r, r ∉ rs → r ≠ .sp → (restored rs s).reg r = s.reg r) ∧
    ∀ p r, rs[p]? = some r →
      (restored rs s).reg r = s.mem.readWord (s.reg .sp + twice (p + 1)).toNat := by
  induction rs generalizing s with
  | nil => simp [restored]
  | cons q rs ih =>
    have hq : Reg.sp ≠ q := fun e => hsp (by simp [← e])
    have hc := List.nodup_cons.mp hn
    obtain ⟨h1, h2, h3, h4, h5, h6, h7, h8, h9⟩ := ih (((s.setReg .sp (s.reg .sp + 2)).setCnt
      (s.cnt - 2)).setReg q (s.mem.readWord (s.reg .sp + 2).toNat))
      (fun h => hsp (List.mem_cons_of_mem _ h)) hc.2
    rw [restored]
    refine ⟨?_, ?_, h3, h4, h5, h6, h7, ?_, ?_⟩
    · rw [h1]
      simp [hq, twice_succ', BitVec.add_assoc]
    · rw [h2]
      simp [twice_succ', BitVec.sub_sub]
    · intro r hr hs
      rw [h8 r (fun h => hr (List.mem_cons_of_mem _ h)) hs]
      have : r ≠ q := fun e => hr (by simp [e])
      simp [this, hs]
    · intro p r hp
      cases p with
      | zero =>
        simp at hp
        subst hp
        rw [h8 q hc.1 (Ne.symm hq)]
        simp [twice]
      | succ p =>
        rw [h9 p r (by simpa using hp)]
        simp [hq, twice_succ' (p + 1), BitVec.add_assoc]

theorem popRegs_ok {rs : List Reg} {s : State} (hsp : .sp ∉ rs)
    (h : ∀ j, 1 ≤ j → j ≤ rs.length → s.inBounds (s.reg .sp + twice j) 2) :
    popRegs rs s = .ok () (restored rs s) := by
  induction rs generalizing s with
  | nil => rfl
  | cons r rest ih =>
    have hr : Reg.sp ≠ r := fun e => hsp (by simp [← e])
    rw [popRegs, pop_ok (by simpa [twice] using h 1 (by omega) (by simp)), Res.bind_ok,
      ih (fun m => hsp (List.mem_cons_of_mem _ m)), restored]
    intro j h1 hj
    have := h (j + 1) (by omega) (by simpa using hj)
    rw [twice_succ', ← BitVec.add_assoc] at this
    simpa [State.inBounds, hr] using this

theorem popRegs_fault {rs : List Reg} {s : State} {j : Nat} (hsp : .sp ∉ rs) (hj : j < rs.length)
    (h : ∀ k, 1 ≤ k → k ≤ j → s.inBounds (s.reg .sp + twice k) 2)
    (hn : ¬ s.inBounds (s.reg .sp + twice (j + 1)) 2) :
    popRegs rs s = .faulted ((popped (restored (rs.take j) s) 1).takeFault
      (.invalidAddress (s.reg .sp + twice (j + 1)) 2 .read)) := by
  induction rs generalizing s j with
  | nil => simp at hj
  | cons r rest ih =>
    have hr : Reg.sp ≠ r := fun e => hsp (by simp [← e])
    rw [popRegs]
    cases j with
    | zero =>
      rw [pop_fault (by simpa [twice] using hn), Res.bind_faulted]
      rfl
    | succ j =>
      rw [pop_ok (by simpa [twice] using h 1 (by omega) (by omega)), Res.bind_ok,
        ih (j := j) (fun m => hsp (List.mem_cons_of_mem _ m)) (by simpa using hj), List.take_succ_cons, restored]
      · simp [twice_succ' (j + 1), BitVec.add_assoc, hr]
      · intro k h1 hk
        have := h (k + 1) (by omega) (by omega)
        rw [twice_succ', ← BitVec.add_assoc] at this
        simpa [State.inBounds, hr] using this
      · rw [twice_succ', ← BitVec.add_assoc] at hn
        simpa [State.inBounds, hr] using hn

/-! ## What they can do -/

theorem pushWords_sound (vs : List Word) (s : State) : (pushWords vs s).Sound s := by
  induction vs generalizing s with
  | nil => exact Goes.refl s
  | cons v rest ih => exact (push_sound v s).bind fun _ t _ => ih t

theorem pushState_sound (s : State) : (pushState s).Sound s := by
  rw [pushState_eq]
  exact (pushWords_sound _ s).bind fun _ t _ => (Goes.setReg t _ _).trans (Goes.setCnt _ _)

theorem popRegs_sound (rs : List Reg) (s : State) : (popRegs rs s).Sound s := by
  induction rs generalizing s with
  | nil => exact Goes.refl s
  | cons r rest ih => exact (pop_sound s).bind fun _ t _ => Res.Sound.after (Goes.setReg t _ _) (ih _)

theorem dropWords_sound (n : Nat) (s : State) : (dropWords n s).Sound s := by
  induction n generalizing s with
  | zero => exact Goes.refl s
  | succ n ih => exact (pop_sound s).bind fun _ t _ => ih t

theorem popState_sound (s : State) : (popState s).Sound s := by
  refine Res.Sound.after (Goes.setReg s _ _) ((pop_sound _).bind fun w t _ => ?_)
  refine Res.Sound.after (Goes.setCnt t w) ((popRegs_sound _ _).bind fun _ u _ => ?_)
  refine (pop_sound u).bind fun n v _ => ?_
  exact (dropWords_sound _ v).bind fun _ x _ => Goes.setReg x _ _

end Sys2Proof.Machine
end

