-- ==== Sys2Proof/Laws/Step.lean ====
section
/-! SUPPORT. What an instruction and a step can do: they answer a next state, which goes on or has faulted. -/

namespace Sys2Proof.Machine

/-- The outcome of a sound result is a next state of one of the two kinds. -/
theorem Res.Sound.toOutcome {s : State} {r : Res Unit} (h : r.Sound s) :
    ∃ t, r.toOutcome = .next t ∧ (Goes s t ∨ Faults s t) := by
  cases r with
  | ok u t => exact ⟨t, rfl, .inl h⟩
  | faulted t => exact ⟨t, rfl, .inr h⟩

/-- Every instruction answers a next state: it goes on, or it has taken a fault. -/
theorem exec_sound (i : Instr) (s : State) : ∃ t, exec i s = .next t ∧ (Goes s t ∨ Faults s t) := by
  cases i with
  | movLitReg literal dst => exact ⟨_, rfl, .inl (Goes.setReg s _ _)⟩
  | movRegReg src dst => exact ⟨_, rfl, .inl (Goes.setReg s _ _)⟩
  | movRegMem src address => exact (write16_sound _ _ s).toOutcome
  | movMemReg address dst =>
    exact Res.Sound.toOutcome (r := (read16 .read address s).bind fun v t => .ok () (t.setReg dst v))
      ((read16_sound _ _ s).bind fun _ t _ => Goes.setReg t _ _)
  | addRegReg ord1 ord2 =>
    refine Res.Sound.toOutcome (r := (readOrdinal ord1 s).bind fun v1 t =>
      (readOrdinal ord2 t).bind fun v2 u => .ok () (u.setReg .acc (addWrap v1 v2))) ?_
    exact (readOrdinal_sound ord1 s).bind fun _ t _ =>
      (readOrdinal_sound ord2 t).bind fun _ u _ => Goes.setReg u _ _
  | jmpNotEq value address =>
    refine ⟨_, rfl, .inl ?_⟩
    split
    · exact Goes.setReg s _ _
    · exact Goes.refl s
  | pshLit value => exact (push_sound _ s).toOutcome
  | pshReg src => exact (push_sound _ s).toOutcome
  | pop dst =>
    exact Res.Sound.toOutcome (r := (Machine.pop s).bind fun v t => .ok () (t.setReg dst v))
      ((pop_sound s).bind fun _ t _ => Goes.setReg t _ _)
  | calLit address =>
    exact Res.Sound.toOutcome (r := (pushState s).bind fun _ t => .ok () (t.setReg .ip address))
      ((pushState_sound s).bind fun _ t _ => Goes.setReg t _ _)
  | calReg src =>
    exact Res.Sound.toOutcome (r := (pushState s).bind fun _ t => .ok () (t.setReg .ip (s.reg src)))
      ((pushState_sound s).bind fun _ t _ => Goes.setReg t _ _)
  | ret => exact (popState_sound s).toOutcome
  | unassigned opcode => exact ⟨s, rfl, .inl (Goes.refl s)⟩

@[simp] theorem runPlan_done (i : Instr) (s : State) : runPlan (.done i) s = .ok i s := by rw [runPlan]
@[simp] theorem runPlan_reg (k : Reg → Plan) (s : State) :
    runPlan (.reg k) s = (fetchRegisterIndex s).bind fun r t => runPlan (k r) t := by rw [runPlan]
@[simp] theorem runPlan_ord (k : Byte → Plan) (s : State) :
    runPlan (.ord k) s = (fetch s).bind fun b t => runPlan (k b) t := by rw [runPlan]; rfl
@[simp] theorem runPlan_imm16 (k : Word → Plan) (s : State) :
    runPlan (.imm16 k) s = (fetch16 s).bind fun v t => runPlan (k v) t := by rw [runPlan]

theorem runPlan_sound (p : Plan) (s : State) : (runPlan p s).Sound s := by
  induction p generalizing s with
  | done i => exact Goes.refl s
  | reg k ih =>
    rw [runPlan_reg]
    exact (fetchRegisterIndex_sound s).bind fun r t _ => ih r t
  | ord k ih =>
    rw [runPlan_ord]
    exact (fetch_sound s).bind fun b t _ => ih b t
  | imm16 k ih =>
    rw [runPlan_imm16]
    exact (fetch16_sound s).bind fun v t _ => ih v t

theorem executeBody_sound (op : Byte) (s : State) :
    ∃ t, executeBody op s = .next t ∧ (Goes s t ∨ Faults s t) := by
  unfold executeBody
  have hp := runPlan_sound (planFor s.cfg.opcodeMap op) s
  cases hr : runPlan (planFor s.cfg.opcodeMap op) s with
  | faulted t =>
    rw [hr] at hp
    exact ⟨t, rfl, .inr hp⟩
  | ok i t =>
    rw [hr] at hp
    obtain ⟨u, hu, hk⟩ := exec_sound i t
    exact ⟨u, hu, hk.imp (Goes.trans hp) (Goes.transFaults hp)⟩

theorem fetchAndExecute_sound (s : State) :
    ∃ t, fetchAndExecute s = .next t ∧ (Goes s t ∨ Faults s t) := by
  unfold fetchAndExecute
  have hp := fetch_sound s
  cases hr : fetch s with
  | faulted t =>
    rw [hr] at hp
    exact ⟨t, rfl, .inr hp⟩
  | ok op t =>
    rw [hr] at hp
    obtain ⟨u, hu, hk⟩ := executeBody_sound op t
    exact ⟨u, hu, hk.imp (Goes.trans hp) (Goes.transFaults hp)⟩

theorem step_of_faulted {s : State} (h : s.engine = .faulted) : step s = .fault (.engineFaulted s.fault) := by
  rw [step, h]

theorem step_of_ready {s : State} (h : s.engine = .ready) : step s = endStep (fetchAndExecute (beginStep s)) := by
  rw [step, h]

theorem executeOpcode_of_faulted (op : Byte) {s : State} (h : s.engine = .faulted) :
    executeOpcode op s = .fault (.engineFaulted s.fault) := by
  rw [executeOpcode, h]

theorem executeOpcode_of_ready (op : Byte) {s : State} (h : s.engine = .ready) :
    executeOpcode op s = endStep (executeBody op (beginStep s)) := by
  rw [executeOpcode, h]

end Sys2Proof.Machine
end

