-- ==== Sys2Proof/Machine/Assembly.lean ====
section
/-! DEFINITION. The spec's assembly notation (30_encoding.md R86, R87): how an instruction is written, and
the bytes a list of lines places in memory. It is a notation for images; the machine does not use it. -/

namespace Sys2Proof.Machine

/-- One line: an instruction, or one of the three directives (R87). -/
inductive Line where
  | instr (i : Instr)
  /-- `.org`: the address of the next byte. -/
  | org (address : Word)
  /-- `.byte`. -/
  | byte (b : Byte)
  /-- `.word`, big-endian. -/
  | word (w : Word)
  deriving DecidableEq, Repr

/-- The bytes a line emits (R86, R87). -/
def Line.bytes (m : OpcodeMap) : Line → List Byte
  | .instr i => encode m i
  | .org _ => []
  | .byte b => [b]
  | .word w => [hiByte w, loByte w]

/-- The memory that lines fill in, from an address on, over a given memory of `size` bytes (R254). -/
def assemble (m : OpcodeMap) (size : Nat) : Memory → Nat → List Line → Memory
  | mem, _, [] => mem
  | mem, _, .org a :: rest => assemble m size mem a.toNat rest
  | mem, place, line :: rest =>
    assemble m size (mem.writeBytes size place (line.bytes m)) (place + (line.bytes m).length) rest

/-- The name of a register (R20). -/
def regName : Reg → String
  | .ip => "ip"
  | .acc => "acc"
  | .r1 => "r1"
  | .r2 => "r2"
  | .r3 => "r3"
  | .r4 => "r4"
  | .r5 => "r5"
  | .r6 => "r6"
  | .r7 => "r7"
  | .r8 => "r8"
  | .sp => "sp"
  | .fp => "fp"

/-- One hexadecimal digit, in capitals as the spec writes its immediates. -/
def hexDigit (n : Nat) : String :=
  if n < 10 then String.singleton (Char.ofNat (48 + n)) else String.singleton (Char.ofNat (55 + n))

/-- `0x` and 4 hex digits (R86). -/
def hexWord (w : Word) : String :=
  "0x" ++ hexDigit (w.toNat / 4096) ++ hexDigit (w.toNat / 256 % 16) ++ hexDigit (w.toNat / 16 % 16)
    ++ hexDigit (w.toNat % 16)

/-- `.byte` and a byte, which is how a no-op is written (R87). -/
def byteDirective (b : Byte) : String :=
  ".byte 0x" ++ hexDigit (b.toNat / 16) ++ hexDigit (b.toNat % 16)

/-- A raw ordinal as the notation writes it: the register's name (R86); there is none for 12 and above. -/
def ordinalName (n : Byte) : Option String := (Reg.ofOrdinal n.toNat).map regName

/-- An instruction in the notation of R86; none for ADD_REG_REG with an ordinal that names no register,
which is written with `.byte` (R87). -/
def assemblyText : Instr → Option String
  | .movLitReg literal dst => some ("MOV_LIT_REG " ++ hexWord literal ++ ", " ++ regName dst)
  | .movRegReg src dst => some ("MOV_REG_REG " ++ regName src ++ ", " ++ regName dst)
  | .movRegMem src address => some ("MOV_REG_MEM " ++ regName src ++ ", " ++ hexWord address)
  | .movMemReg address dst => some ("MOV_MEM_REG " ++ hexWord address ++ ", " ++ regName dst)
  | .addRegReg ord1 ord2 =>
    match ordinalName ord1, ordinalName ord2 with
    | some a, some b => some ("ADD_REG_REG " ++ a ++ ", " ++ b)
    | _, _ => none
  | .jmpNotEq value address => some ("JMP_NOT_EQ " ++ hexWord value ++ ", " ++ hexWord address)
  | .pshLit value => some ("PSH_LIT " ++ hexWord value)
  | .pshReg src => some ("PSH_REG " ++ regName src)
  | .pop dst => some ("POP " ++ regName dst)
  | .calLit address => some ("CAL_LIT " ++ hexWord address)
  | .calReg src => some ("CAL_REG " ++ regName src)
  | .ret => some "RET"
  | .unassigned b => some (byteDirective b)

end Sys2Proof.Machine
end

