-- ==== Sys2Proof/Tests/Slice0.lean ====
section
/-! SUPPORT. Tests on fixed values, each expected result taken from the spec's own vectors and examples (cited
by id); the checks on ill-formed terms; and, for every statement with hypotheses, a state and operands that
meet them, at boundary values, one for each clause. -/

namespace Sys2Proof.Tests

open Sys2Proof.Machine Sys2Proof.Claims

/-- The state after construction with bytes at an address of an otherwise zero memory, and `ip` there. -/
def code (size ip : Nat) (bytes : List Byte) : State :=
  (State.initial { memSize := size, opcodeMap := OpcodeMap.default } (Memory.ofBytes ip bytes)).setReg .ip
    (BitVec.ofNat 16 ip)

/-- Bytes stored at an address. -/
def poke (a : Nat) (bytes : List Byte) (s : State) : State :=
  s.setMem (s.mem.writeBytes s.cfg.memSize a bytes)

/-- The state after one step. -/
def stepped (s : State) : State := stateAfter s (step s)

/-- The state after an instruction. -/
def ran (i : Instr) (s : State) : State := stateAfter s (exec i s)

/-- A fault record, field by field. -/
def faultRecord (cause kind : BitVec 2) (addr : Word) (width : BitVec 2) (start : Word) : FaultRecord where
  cause := cause
  kind := kind
  addr := addr
  width := width
  instrAddr := start

/-- A default map but for RET at 0x00, so that memory out of bounds reads as an assigned opcode. -/
def retAtZero : OpcodeMap := { OpcodeMap.default with ret := 0 }

/-! ## Ill-formed terms -/

theorem test_memsize_one_is_illformed : ¬ ({ memSize := 1, opcodeMap := OpcodeMap.default } : Config).wf := by
  decide
theorem test_memsize_65537_is_illformed :
    ¬ ({ memSize := 65537, opcodeMap := OpcodeMap.default } : Config).wf := by decide
theorem test_bounds_of_memsize_are_wellformed :
    ({ memSize := 2, opcodeMap := OpcodeMap.default } : Config).wf ∧
    ({ memSize := 65536, opcodeMap := OpcodeMap.default } : Config).wf := by decide
theorem test_clashing_map_is_illformed : ¬ ({ OpcodeMap.default with pop := 0x10 } : OpcodeMap).wf := by decide
theorem test_assigned_byte_as_unassigned_is_illformed :
    (Instr.unassigned 0x60).wf OpcodeMap.default = false := by decide
theorem test_illformed_memories :
    ¬ Memory.wf 4 [(1, 2), (1, 3)] ∧ ¬ Memory.wf 4 [(1, 0)] ∧ ¬ Memory.wf 4 [(4, 1)] := by decide
theorem test_construct_refuses_lengths_and_clashes :
    construct OpcodeMap.default [0] = .refused (.imageSize 1) ∧
    construct { OpcodeMap.default with pop := 0x10 } [0, 0] = .refused .opcodeClash := ⟨rfl, rfl⟩

/-! ## Decoding: words written out from 30_encoding.md R72 and R78 -/

theorem test_decode_mov_lit_reg :
    decodeTableWord 32 0b00000010_00110100_00010010_00010000 = some (.movLitReg 0x1234 .r1) := by decide
theorem test_decode_mov_reg_reg :
    decodeTableWord 24 0b00001011_00001010_00010001 = some (.movRegReg .sp .fp) := by decide
theorem test_decode_mov_reg_mem :
    decodeTableWord 32 0b00110100_00010010_00000010_00010010 = some (.movRegMem .r1 0x1234) := by decide
theorem test_decode_mov_mem_reg :
    decodeTableWord 32 0b00000011_00110100_00010010_00010011 = some (.movMemReg 0x1234 .r2) := by decide
theorem test_decode_add_reg_reg_keeps_raw_ordinals :
    decodeTableWord 24 0b11111111_00000010_00010100 = some (.addRegReg 2 255) := by decide
theorem test_decode_jmp_not_eq :
    decodeTableWord 40 0b00000001_00100000_00000011_00000000_00010101 = some (.jmpNotEq 0x0003 0x2001) := by
  decide
theorem test_decode_psh_lit : decodeTableWord 24 0b00110100_00010010_00010111 = some (.pshLit 0x1234) := by
  decide
/-- 44_stack.md R174: byte 0x16 selects sp. -/
theorem test_decode_psh_reg_wraps_selector :
    decodeTableWord 16 0b00010110_00011000 = some (.pshReg .sp) := by decide
theorem test_decode_pop : decodeTableWord 16 0b00000010_00011010 = some (.pop .r1) := by decide
theorem test_decode_cal_lit : decodeTableWord 24 0b00000000_00110000_01011110 = some (.calLit 0x3000) := by
  decide
theorem test_decode_cal_reg : decodeTableWord 16 0b00000110_01011111 = some (.calReg .r5) := by decide
theorem test_decode_ret : decodeTableWord 8 0b01100000 = some .ret := by decide
theorem test_decode_unassigned :
    decodeTableWord 8 0b00011001 = some (.unassigned 0x19) ∧
    decodeTableWord 8 0 = some (.unassigned 0) := by decide
theorem test_truncated_bytes_are_rejected_by_name :
    decode OpcodeMap.default [0x15, 0, 3, 0x20] = .error (.truncated 0x15) ∧
    decode OpcodeMap.default [] = .error .noOpcode := ⟨rfl, rfl⟩

/-! ## One step, from the vectors of 95_test_vectors.md -/

/-- V-FD-3. -/
theorem test_unassigned_wraps_ip : (stepped (code 65536 0xFFFF [0])).reg .ip = 0 := by decide
/-- V-FD-5. -/
theorem test_opcode_fetch_past_the_end :
    (stepped (code 0x1000 0x1000 [])).fault = faultRecord 1 0 0x1000 1 0x1000 ∧
    (stepped (code 0x1000 0x1000 [])).reg .ip = 0x1000 := by decide
/-- V-FD-6. -/
theorem test_mov_lit_reg_cut_off :
    (stepped (code 0x1000 0xFFE [0x10, 0x12])).fault = faultRecord 1 0 0xFFF 2 0xFFE ∧
    (stepped (code 0x1000 0xFFE [0x10, 0x12])).reg .ip = 0xFFF := by decide
/-- V-FD-13. -/
theorem test_mov_lit_reg_selector_255 :
    (stepped (code 65536 0x100 [0x10, 0xBE, 0xEF, 0xFF])).reg .r2 = 0xBEEF ∧
    (stepped (code 65536 0x100 [0x10, 0xBE, 0xEF, 0xFF])).reg .ip = 0x104 := by decide
/-- V-FD-8. -/
theorem test_execute_skips_the_opcode :
    (stateAfter State.reset (executeOpcode 0x10 (code 65536 0x100 [0xAB, 0xCD, 2]))).reg .ip = 0x103 := by
  decide
/-- V-MOV-2. -/
theorem test_mov_reg_reg_reads_ip_after_the_fetch :
    (stepped (code 65536 0x100 [0x11, 0, 1])).reg .acc = 0x103 := by decide
/-- V-MOV-6. -/
theorem test_mov_reg_mem_last_word :
    (stepped ((code 65536 0x100 [0x12, 2, 0xFF, 0xFE]).setReg .r1 0xA55A)).mem.read 0xFFFE = 0xA5 ∧
    (stepped ((code 65536 0x100 [0x12, 2, 0xFF, 0xFE]).setReg .r1 0xA55A)).mem.read 0xFFFF = 0x5A := by
  decide
/-- V-MOV-7. -/
theorem test_mov_reg_mem_faults_whole :
    (stepped ((code 65536 0x100 [0x12, 2, 0xFF, 0xFF]).setReg .r1 0xA55A)).fault = faultRecord 1 2 0xFFFF 2 0x100 ∧
    (stepped ((code 65536 0x100 [0x12, 2, 0xFF, 0xFF]).setReg .r1 0xA55A)).mem.read 0xFFFF = 0 := by decide
/-- V-MOV-8. -/
theorem test_mov_mem_reg_is_big_endian :
    (stepped (poke 0x200 [0x12, 0x34] (code 65536 0x100 [0x13, 2, 0, 3]))).reg .r2 = 0x1234 := by decide
/-- V-MOV-10. -/
theorem test_mov_mem_reg_jumps : (stepped (code 65536 0x100 [0x13, 1, 0, 0])).reg .ip = 0x1301 := by decide
/-- V-ADD-2. -/
theorem test_add_wraps :
    (stepped (((code 65536 0x100 [0x14, 2, 3]).setReg .r1 0xFFFF).setReg .r2 1)).reg .acc = 0 := by decide
/-- V-ADD-11: the first operand is checked first. -/
theorem test_add_reports_the_first_ordinal :
    (stepped (code 65536 0x100 [0x14, 0xFF, 0x0C])).fault = faultRecord 2 0 0xFF 0 0x100 := by decide
/-- V-JMP-1 and V-JMP-2. -/
theorem test_jmp_falls_through_when_equal :
    (stepped ((code 65536 0x100 [0x15, 0, 5, 2, 0]).setReg .acc 5)).reg .ip = 0x105 := by decide
theorem test_jmp_jumps_when_different :
    (stepped ((code 65536 0x100 [0x15, 0, 5, 2, 0]).setReg .acc 6)).reg .ip = 0x200 := by decide
/-- V-STK-2. -/
theorem test_psh_lit_wraps_sp :
    (stepped ((code 65536 0x100 [0x17, 0x12, 0x34]).setReg .sp 0)).reg .sp = 0xFFFE ∧
    (stepped ((code 65536 0x100 [0x17, 0x12, 0x34]).setReg .sp 0)).mem.readWord 0 = 0x1234 := by decide
/-- V-STK-5. -/
theorem test_psh_reg_sp_pushes_the_old_sp :
    (stepped (code 65536 0x100 [0x18, 0x0A])).mem.readWord 0xFFFE = 0xFFFE ∧
    (stepped (code 65536 0x100 [0x18, 0x0A])).cnt = 2 := by decide
/-- V-STK-8. -/
theorem test_pop_into_sp :
    (stepped ((poke 0xFFFE [0x12, 0x34] (code 65536 0x100 [0x1A, 0x0A])).setReg .sp 0xFFFC)).reg .sp =
      0x1234 := by decide
/-- V-STK-11. -/
theorem test_pop_faults_with_sp_moved :
    (stepped (code 0x1000 0x100 [0x1A, 2])).fault = faultRecord 1 1 0x1000 2 0x100 ∧
    (stepped (code 0x1000 0x100 [0x1A, 2])).reg .sp = 0x1000 ∧
    (stepped (code 0x1000 0x100 [0x1A, 2])).cnt = 0xFFFE := by decide
/-- V-CR-1. -/
def caller : State := (((code 65536 0x14 [0x5E, 0x30, 0]).setReg .sp 0xFFF6).setReg .fp 0xFFFE).setCnt 8
theorem test_cal_lit_frame :
    (stepped caller).reg .ip = 0x3000 ∧ (stepped caller).reg .fp = 0xFFE2 ∧ (stepped caller).cnt = 0 ∧
    (stepped caller).mem.readWord 0xFFE4 = 0x1C ∧ (stepped caller).mem.readWord 0xFFE6 = 0x17 := by decide
/-- V-CR-2. -/
theorem test_cal_reg_saves_its_target_register :
    (stepped ((code 65536 0x100 [0x5F, 2]).setReg .r1 0x4000)).reg .ip = 0x4000 ∧
    (stepped ((code 65536 0x100 [0x5F, 2]).setReg .r1 0x4000)).mem.readWord 0xFFFE = 0x4000 := by decide
/-- V-CR-9: RET with no call reads the program's bytes as a frame. -/
theorem test_ret_with_no_call :
    (stepped (code 65536 0 [0x60])).reg .sp = 0x14 ∧ (stepped (code 65536 0 [0x60])).reg .fp = 0x5FFE ∧
    (stepped (code 65536 0 [0x60])).cnt = 0x5FEC := by decide
/-- V-CR-8. -/
theorem test_ret_faults_at_the_first_pop :
    (stepped (code 0x1000 0x100 [0x60])).fault = faultRecord 1 1 0x1000 2 0x100 := by decide

/-! ## Witnesses: states and operands that meet the hypotheses of each statement -/

/-- The hypotheses under which `RunsAs` says that bytes run as an instruction. -/
abbrev Runs (s : State) (m : OpcodeMap) (bytes : List Byte) (fields : List (Nat × Nat)) : Prop :=
  s.cfg.wf ∧ s.engine = .ready ∧ s.cfg.opcodeMap = m ∧ stream s (s.reg .ip) bytes.length = bytes ∧
  ∀ f ∈ fields, FieldOk s (s.reg .ip) f

/-- The hypotheses under which `RunsAs` says that the field after `before` faults. -/
abbrev Stops (s : State) (m : OpcodeMap) (bytes : List Byte) (before : List (Nat × Nat)) (o w : Nat) : Prop :=
  Runs s m bytes before ∧ ¬ FieldOk s (s.reg .ip) (o, w)

theorem witness_decode_of_encode :
    OpcodeMap.default.wf ∧ (Instr.unassigned 0xFF).wf OpcodeMap.default = true ∧
    (Instr.jmpNotEq 0xFFFF 0).wf OpcodeMap.default = true := by decide

theorem witness_length :
    OpcodeMap.default.wf ∧ [0, 0, (0 : Byte)].length + 1 < lengthOfOpcode OpcodeMap.default 0x15 ∧
    lengthOfOpcode OpcodeMap.default 0x15 ≤ [0, 0, 0, (0 : Byte)].length + 1 := by decide

theorem witness_selector : (3 : Byte).toNat + 12 * 21 ≤ 255 ∧ (0 : Byte).toNat + 12 * 1 ≤ 255 := by decide

theorem witness_opcode_match : OpcodeMap.default.wf ∧ retAtZero.wf := by decide

theorem witness_port :
    Memory.wf (code 4 0 [1]).cfg.memSize (code 4 0 [1]).mem ∧
    (3 : Word).toNat + 1 ≤ (code 4 0 [1]).cfg.memSize ∧ (code 4 0 [1]).cfg.memSize < (4 : Word).toNat + 1 ∧
    (2 : Word).toNat + 2 ≤ (code 4 0 [1]).cfg.memSize ∧ (code 4 0 [1]).cfg.memSize < (3 : Word).toNat + 2 := by
  decide

theorem witness_no_wrap :
    (code 65536 0 []).cfg.wf ∧ (0xFFFF : Word).toNat = (code 65536 0 []).cfg.memSize - 1 ∧
    (code 2 0 []).cfg.wf ∧ (1 : Word).toNat = (code 2 0 []).cfg.memSize - 1 := by decide

/-- The memory is canonical and the word at `a` is in bounds: the hypotheses of the storing statements. -/
theorem witness_word_in_bounds :
    Memory.wf (code 4 0 [1]).cfg.memSize (code 4 0 [1]).mem ∧ WordOk (code 4 0 [1]) 2 ∧
    ¬ WordOk (code 4 0 [1]) 3 := by decide

theorem witness_only_stores :
    exec (.pop .r1) (code 65536 0 []) = .next (ran (.pop .r1) (code 65536 0 [])) ∧
    dataFaultKind (.pop .r1) ≠ some 2 := ⟨rfl, by decide⟩

theorem witness_step_runs :
    (code 5 0 [0x15, 0, 3, 0x20, 0]).cfg.wf ∧ (code 5 0 [0x15, 0, 3, 0x20, 0]).engine = .ready ∧
    decode (code 5 0 [0x15, 0, 3, 0x20, 0]).cfg.opcodeMap
      (stream (code 5 0 [0x15, 0, 3, 0x20, 0]) ((code 5 0 [0x15, 0, 3, 0x20, 0]).reg .ip)
        (Instr.jmpNotEq 3 0x2000).length) = .ok (.jmpNotEq 3 0x2000, []) ∧
    ∀ f ∈ layout (.jmpNotEq 3 0x2000),
      FieldOk (code 5 0 [0x15, 0, 3, 0x20, 0]) ((code 5 0 [0x15, 0, 3, 0x20, 0]).reg .ip) f :=
  ⟨by decide, rfl, rfl, by decide⟩

theorem witness_step_stops :
    (code 4 0 [0x15, 0, 3, 0]).cfg.wf ∧ (code 4 0 [0x15, 0, 3, 0]).engine = .ready ∧
    decode (code 4 0 [0x15, 0, 3, 0]).cfg.opcodeMap
      (stream (code 4 0 [0x15, 0, 3, 0]) ((code 4 0 [0x15, 0, 3, 0]).reg .ip)
        (Instr.jmpNotEq 3 0).length) = .ok (.jmpNotEq 3 0, []) ∧
    layout (.jmpNotEq 3 0) = [(0, 1), (1, 2)] ++ (3, 2) :: [] ∧
    (∀ f ∈ [(0, 1), (1, 2)], FieldOk (code 4 0 [0x15, 0, 3, 0]) ((code 4 0 [0x15, 0, 3, 0]).reg .ip) f) ∧
    ¬ FieldOk (code 4 0 [0x15, 0, 3, 0]) ((code 4 0 [0x15, 0, 3, 0]).reg .ip) (3, 2) :=
  ⟨by decide, rfl, rfl, rfl, by decide, by decide⟩

theorem witness_execute_runs :
    (code 4 0 [0, 3, 0x20, 0]).cfg.wf ∧ (code 4 0 [0, 3, 0x20, 0]).engine = .ready ∧
    decode (code 4 0 [0, 3, 0x20, 0]).cfg.opcodeMap
      (0x15 :: stream (code 4 0 [0, 3, 0x20, 0]) ((code 4 0 [0, 3, 0x20, 0]).reg .ip)
        ((Instr.jmpNotEq 3 0x2000).length - 1)) = .ok (.jmpNotEq 3 0x2000, []) ∧
    FieldOk (code 4 0 [0, 3, 0x20, 0]) ((code 4 0 [0, 3, 0x20, 0]).reg .ip) (0, 2) ∧
    FieldOk (code 4 0 [0, 3, 0x20, 0]) ((code 4 0 [0, 3, 0x20, 0]).reg .ip) (2, 2) :=
  ⟨by decide, rfl, rfl, by decide, by decide⟩

theorem witness_execute_stops :
    (code 3 0 [0, 3]).cfg.wf ∧ (code 3 0 [0, 3]).engine = .ready ∧
    decode (code 3 0 [0, 3]).cfg.opcodeMap
      (0x15 :: stream (code 3 0 [0, 3]) ((code 3 0 [0, 3]).reg .ip)
        ((Instr.jmpNotEq 3 0).length - 1)) = .ok (.jmpNotEq 3 0, []) ∧
    (2 + 1, 2) ∈ layout (.jmpNotEq 3 0) ∧ ¬ FieldOk (code 3 0 [0, 3]) ((code 3 0 [0, 3]).reg .ip) (2, 2) ∧
    FieldOk (code 3 0 [0, 3]) ((code 3 0 [0, 3]).reg .ip) (0, 2) :=
  ⟨by decide, rfl, rfl, by decide, by decide, by decide⟩

/-- READY, the latch clear and an unassigned opcode: `executeOpcode`'s no-op. -/
theorem witness_execute_unassigned :
    (code 2 0 []).engine = .ready ∧ (code 2 0 []).instrStart = 0 ∧
    (0xFF : Byte) ∉ (code 2 0 []).cfg.opcodeMap.bytes := by decide

/-- A state in FAULTED that steps reach, and that meets the invariant. -/
theorem witness_faulted :
    (stepped (code 2 2 [])).engine = .faulted ∧ Invariant (stepped (code 2 2 [])) := by decide

/-- A memory of four bytes and in r1 the bytes of `POP r1`. -/
def storer : State := (code 4 0 [1]).setReg .r1 0x1A02

theorem witness_stored_bytes_run :
    storer.cfg.wf ∧ Memory.wf storer.cfg.memSize storer.mem ∧ storer.engine = .ready ∧ WordOk storer 2 ∧
    decode storer.cfg.opcodeMap [hiByte (storer.reg .r1), loByte (storer.reg .r1)] = .ok (.pop .r1, []) :=
  ⟨by decide, by decide, rfl, by decide, rfl⟩

theorem witness_placed_word :
    Memory.wf (code 5 0 [1]).cfg.memSize (code 5 0 [1]).mem ∧ (code 5 0 [1]).engine = .ready ∧
    (code 5 0 [1]).cfg.opcodeMap = OpcodeMap.default ∧
    ((code 5 0 [1]).reg .ip).toNat + 5 ≤ (code 5 0 [1]).cfg.memSize ∧ (code 5 0 [1]).cfg.memSize ≤ 65536 ∧
    decodeTableWord 40 0x0020030015 = some (.jmpNotEq 3 0x2000) := by decide

theorem witness_unassigned :
    (0 : Byte) ∉ OpcodeMap.default.bytes ∧ Runs (code 2 1 []) OpcodeMap.default [0] [(0, 1)] ∧
    Stops (code 2 2 []) OpcodeMap.default [0] [] 0 1 := by decide

theorem witness_mov_lit_reg :
    Runs (code 4 0 [0x10, 0x12, 0x34, 2]) OpcodeMap.default [0x10, 0x12, 0x34, 2] [(0, 1), (1, 2), (3, 1)] ∧
    Stops (code 3 0 [0x10, 0x12, 0x34]) OpcodeMap.default [0x10, 0x12, 0x34, 0] [(0, 1), (1, 2)] 3 1 := by
  decide

theorem witness_mov_reg_reg :
    Runs (code 3 0 [0x11, 2, 3]) OpcodeMap.default [0x11, 2, 3] [(0, 1), (1, 1), (2, 1)] ∧
    Stops (code 2 0 [0x11, 2]) OpcodeMap.default [0x11, 2, 0] [(0, 1), (1, 1)] 2 1 := by decide

theorem witness_mov_reg_mem :
    Runs (code 4 0 [0x12, 2, 0x12, 0x34]) OpcodeMap.default [0x12, 2, 0x12, 0x34] [(0, 1), (1, 1), (2, 2)] ∧
    Stops (code 3 0 [0x12, 2, 0x12]) OpcodeMap.default [0x12, 2, 0x12, 0] [(0, 1), (1, 1)] 2 2 := by decide

theorem witness_mov_mem_reg :
    Runs (code 4 0 [0x13, 0x12, 0x34, 3]) OpcodeMap.default [0x13, 0x12, 0x34, 3] [(0, 1), (1, 2), (3, 1)] ∧
    Stops (code 2 0 [0x13, 0x12]) OpcodeMap.default [0x13, 0x12, 0, 0] [(0, 1)] 1 2 := by decide

theorem witness_add_reg_reg :
    Runs (code 3 0 [0x14, 2, 3]) OpcodeMap.default [0x14, 2, 3] [(0, 1), (1, 1), (2, 1)] ∧
    Stops (code 2 0 [0x14, 2]) OpcodeMap.default [0x14, 2, 0] [(0, 1), (1, 1)] 2 1 ∧
    (11 : Byte).toNat = Reg.fp.ordinal ∧ (0 : Byte).toNat = Reg.ip.ordinal ∧
    12 ≤ (12 : Byte).toNat ∧ 12 ≤ (255 : Byte).toNat ∧ (11 : Byte).toNat < 12 := by decide

theorem witness_jmp_not_eq :
    Runs (code 5 0 [0x15, 0, 3, 0x20, 0]) OpcodeMap.default [0x15, 0, 3, 0x20, 0] [(0, 1), (1, 2), (3, 2)] ∧
    Stops (code 4 0 [0x15, 0, 3, 0x20]) OpcodeMap.default [0x15, 0, 3, 0x20, 0] [(0, 1), (1, 2)] 3 2 := by
  decide

/-- The encoding, a push at the last word, past it, and at 0, from where `sp` wraps. -/
theorem witness_psh_lit :
    Runs (code 3 0 [0x17, 0x12, 0x34]) OpcodeMap.default [0x17, 0x12, 0x34] [(0, 1), (1, 2)] ∧
    Stops (code 2 0 [0x17, 0x12]) OpcodeMap.default [0x17, 0x12, 0] [(0, 1)] 1 2 ∧
    Memory.wf (code 4 0 [1]).cfg.memSize (code 4 0 [1]).mem ∧
    WordOk (code 4 0 [1]) ((code 4 0 [1]).reg .sp) ∧
    WordOk ((code 4 0 [1]).setReg .sp 0) (((code 4 0 [1]).setReg .sp 0).reg .sp) ∧
    ¬ WordOk ((code 4 0 [1]).setReg .sp 3) (((code 4 0 [1]).setReg .sp 3).reg .sp) := by decide

theorem witness_psh_reg :
    Runs (code 2 0 [0x18, 0x0A]) OpcodeMap.default [0x18, 0x0A] [(0, 1), (1, 1)] ∧
    Stops (code 2 1 [0x18]) OpcodeMap.default [0x18, 0] [(0, 1)] 1 1 := by decide

/-- The encoding, a pop from the last word, a pop past it, and the wrap of `sp`. -/
theorem witness_pop :
    Runs (code 2 0 [0x1A, 2]) OpcodeMap.default [0x1A, 2] [(0, 1), (1, 1)] ∧
    Stops (code 2 1 [0x1A]) OpcodeMap.default [0x1A, 0] [(0, 1)] 1 1 ∧
    WordOk ((code 4 0 []).setReg .sp 0) (((code 4 0 []).setReg .sp 0).reg .sp + 2) ∧
    ¬ WordOk (code 4 0 []) ((code 4 0 []).reg .sp + 2) ∧
    WordOk (code 65536 0 []) ((code 65536 0 []).reg .sp + 2) := by decide

/-- Ten pushes from 18 down in 20 bytes are all in bounds; from 19 the first is not; from 16 the tenth, which
wraps to 0xFFFE, is the only one that is not. -/
theorem witness_calls :
    Memory.wf (code 20 0 [1]).cfg.memSize (code 20 0 [1]).mem ∧
    (∀ j, j < 10 → WordOk (code 20 0 [1]) (pushSlot (code 20 0 [1]) j)) ∧
    ¬ WordOk ((code 20 0 [1]).setReg .sp 19) (pushSlot ((code 20 0 [1]).setReg .sp 19) 0) ∧
    (∀ k, k < 9 → WordOk ((code 20 0 [1]).setReg .sp 16) (pushSlot ((code 20 0 [1]).setReg .sp 16) k)) ∧
    ¬ WordOk ((code 20 0 [1]).setReg .sp 16) (pushSlot ((code 20 0 [1]).setReg .sp 16) 9) := by decide

theorem witness_cal_lit :
    Runs (code 3 0 [0x5E, 0x30, 0]) OpcodeMap.default [0x5E, 0x30, 0] [(0, 1), (1, 2)] ∧
    Stops (code 2 0 [0x5E, 0x30]) OpcodeMap.default [0x5E, 0x30, 0] [(0, 1)] 1 2 := by decide

theorem witness_cal_reg :
    Runs (code 2 0 [0x5F, 6]) OpcodeMap.default [0x5F, 6] [(0, 1), (1, 1)] ∧
    Stops (code 2 1 [0x5F]) OpcodeMap.default [0x5F, 0] [(0, 1)] 1 1 := by decide

/-- RET at the last byte of memory, and, in a map where RET is 0x00, past it. -/
theorem witness_ret_fetch :
    Runs (code 2 1 [0x60]) OpcodeMap.default [0x60] [(0, 1)] ∧
    Stops ((State.initial { memSize := 2, opcodeMap := retAtZero } []).setReg .ip 2) retAtZero [0] [] 0 1 := by
  decide

/-- A frame at 0 with one argument, in `n` bytes. -/
def frameIn (n : Nat) : State := (code n 0 [0, 0, 0, 0x20] |> poke 22 [0, 1]).setReg .fp 0

/-- All twelve pops in bounds in 26 bytes; the first, the eleventh and the twelfth out of bounds in 2, 22 and
24 bytes. -/
theorem witness_ret :
    popCount (frameIn 26) = 12 ∧
    (∀ j, j ≤ 12 → 1 ≤ j → WordOk (frameIn 26) (popSlot (frameIn 26) j)) ∧
    ¬ WordOk (frameIn 2) (popSlot (frameIn 2) 1) ∧
    (∀ k, k < 11 → 1 ≤ k → WordOk (frameIn 22) (popSlot (frameIn 22) k)) ∧
    ¬ WordOk (frameIn 22) (popSlot (frameIn 22) 11) ∧
    popCount (frameIn 24) = 12 ∧ (∀ k, k < 12 → 1 ≤ k → WordOk (frameIn 24) (popSlot (frameIn 24) k)) ∧
    ¬ WordOk (frameIn 24) (popSlot (frameIn 24) 12) := by decide

/-- `sp` at the last word a push and a pop reach, and at the first they do not. -/
theorem witness_stack_bounds :
    (code 4 0 []).cfg.wf ∧ (code 65536 0 []).cfg.wf ∧
    WordOk (code 4 0 []) ((code 4 0 []).reg .sp) ∧
    WordOk ((code 4 0 []).setReg .sp 0) (((code 4 0 []).setReg .sp 0).reg .sp + 2) ∧
    (code 4 0 []).cfg.memSize - 1 ≤ (((code 4 0 []).setReg .sp 3).reg .sp).toNat ∧
    (code 4 0 []).cfg.memSize - 1 ≤ (((code 4 0 []).setReg .sp 1).reg .sp + 2).toNat ∧
    (code 65536 0 []).cfg.memSize = 65536 ∧ (code 65536 0 []).reg .sp = 0xFFFE ∧
    (code 65535 0 []).cfg.wf ∧ (code 65535 0 []).cfg.memSize < 65536 ∧
    ((code 65535 0 []).reg .sp).toNat = (code 65535 0 []).cfg.memSize - 2 := by decide

theorem witness_frame_base :
    construct OpcodeMap.default [0, 0] = .next (State.initial
      { memSize := 2, opcodeMap := OpcodeMap.default } []) ∧
    Instr.pop .r1 ≠ .ret ∧ writesStackPointer (.pop .r1) = false ∧
    exec (.pop .r1) (code 4 0 []) = .next (ran (.pop .r1) (code 4 0 [])) ∧
    (code 4 0 []).reg .fp = (code 4 0 []).reg .sp + (code 4 0 []).cnt := ⟨rfl, by decide, rfl, rfl, rfl⟩

theorem witness_counter :
    exec (.movRegReg .r1 .sp) (code 4 0 []) = .next (ran (.movRegReg .r1 .sp) (code 4 0 [])) ∧
    usesStack (.movRegReg .r1 .sp) = false := ⟨rfl, rfl⟩

/-- The state just after V-CR-1's call, with the argument count 0. -/
def called : State := ran (.calLit 0x3000) caller

theorem witness_return_cal_lit :
    Memory.wf caller.cfg.memSize caller.mem ∧ caller.engine = .ready ∧
    exec (.calLit 0x3000) caller = .next called ∧ called.engine = .ready ∧
    ∀ j, j ≤ popCount called → 11 ≤ j → WordOk called (popSlot called j) :=
  ⟨by decide, rfl, rfl, by decide, by decide⟩

theorem witness_return_cal_reg :
    exec (.calReg .r1) caller = .next (ran (.calReg .r1) caller) ∧ (ran (.calReg .r1) caller).engine = .ready ∧
    ∀ j, j ≤ popCount (ran (.calReg .r1) caller) → 11 ≤ j →
      WordOk (ran (.calReg .r1) caller) (popSlot (ran (.calReg .r1) caller) j) :=
  ⟨rfl, by decide, by decide⟩

/-- Commands of FAULTED: one that is kept out of it, and the hypothesis on them. -/
theorem witness_keeps_core :
    (stepped (code 2 2 [])).engine = .faulted ∧ keepsCore (.writeReg .ip 0) = true := by decide

/-- A step that faults, one that does not, and an execute that faults. -/
theorem witness_record :
    (code 2 2 []).engine = .ready ∧ step (code 2 2 []) = .next (stepped (code 2 2 [])) ∧
    (stepped (code 2 2 [])).engine = .faulted ∧
    (code 2 0 []).engine = .ready ∧ step (code 2 0 []) = .next (stepped (code 2 0 [])) ∧
    (stepped (code 2 0 [])).engine = .ready ∧
    executeOpcode 0x60 (code 2 0 []) = .next (stateAfter State.reset (executeOpcode 0x60 (code 2 0 []))) ∧
    (stateAfter State.reset (executeOpcode 0x60 (code 2 0 []))).engine = .faulted :=
  ⟨rfl, rfl, by decide, rfl, rfl, by decide, rfl, by decide⟩

theorem witness_fault_table :
    (code 4 0 []).engine = .ready ∧
    exec (.pop .r1) (code 4 0 []) = .next (ran (.pop .r1) (code 4 0 [])) ∧
    (ran (.pop .r1) (code 4 0 [])).engine = .faulted ∧
    exec (.addRegReg 11 12) (code 4 0 []) = .next (ran (.addRegReg 11 12) (code 4 0 [])) ∧
    (ran (.addRegReg 11 12) (code 4 0 [])).engine = .faulted := ⟨rfl, rfl, by decide, rfl, by decide⟩

/-- An image too short by one, too long by one, and of the least and the greatest length. -/
theorem witness_construction :
    OpcodeMap.default.wf ∧ [(0 : Byte)].length < 2 ∧ 65536 < (List.replicate 65537 (0 : Byte)).length ∧
    2 ≤ [(1 : Byte), 2].length ∧ [(1 : Byte), 2].length ≤ 65536 ∧
    2 ≤ (List.replicate 65536 (1 : Byte)).length ∧ (List.replicate 65536 (1 : Byte)).length ≤ 65536 := by
  rw [List.length_replicate, List.length_replicate]
  decide

theorem witness_invariant :
    Invariant (code 4 0 [0x17, 0x12, 0x34]) ∧
    step (code 4 0 [0x17, 0x12, 0x34]) = .next (stepped (code 4 0 [0x17, 0x12, 0x34])) := ⟨by decide, rfl⟩

theorem witness_host_memory :
    Memory.wf (code 4 0 [1]).cfg.memSize (code 4 0 [1]).mem ∧ 3 < (code 4 0 [1]).cfg.memSize ∧
    (code 4 0 [1]).cfg.memSize ≤ 4 := by decide

/-- A run that stops at its address, after two steps and after none, one that faults before it, a run to the
first fault, and runs of one step too few. -/
theorem witness_runs :
    runUntil 2 2 (code 2 0 []) = .reached (runSteps 2 (code 2 0 [])) ∧
    runUntil 0 0 (code 2 0 []) = .reached (code 2 0 []) ∧
    runUntil 2 1 (code 2 0 []) = .unfinished (runSteps 1 (code 2 0 [])) ∧
    runUntil 9 3 (code 2 0 []) = .faulted (runSteps 3 (code 2 0 [])) ∧
    runToFault 3 (code 2 0 []) = .faulted (runSteps 3 (code 2 0 [])) ∧
    runToFault 2 (code 2 0 []) = .unfinished (runSteps 2 (code 2 0 [])) := by decide

/-- The right sides of the same: the first two states are READY and away from 2 and from 9, the third is READY
at 2, and the fourth is FAULTED. -/
theorem witness_first_arrival :
    (∀ k, k < 2 → (runSteps k (code 2 0 [])).engine = .ready ∧ (runSteps k (code 2 0 [])).reg .ip ≠ 2) ∧
    (runSteps 2 (code 2 0 [])).engine = .ready ∧ (runSteps 2 (code 2 0 [])).reg .ip = 2 ∧
    (∀ k, k < 3 → (runSteps k (code 2 0 [])).engine = .ready ∧ (runSteps k (code 2 0 [])).reg .ip ≠ 9) ∧
    (runSteps 3 (code 2 0 [])).engine = .faulted := by decide

/-- From READY a step that stays READY, a step and an execute that fault, and a step from FAULTED. -/
theorem witness_replies :
    (code 2 0 []).engine = .ready ∧ (command .step (code 2 0 [])).2.engine = .ready ∧
    (command (.execute 0) (code 2 0 [])).2.engine = .ready ∧
    (code 2 2 []).engine = .ready ∧ (command .step (code 2 2 [])).2.engine = .faulted ∧
    (command (.execute 0x60) (code 2 0 [])).2.engine = .faulted ∧
    (stepped (code 2 2 [])).engine = .faulted ∧
    (command .step (stepped (code 2 2 []))).2.engine = .faulted := by decide

end Sys2Proof.Tests
end

section
/-! The register buffer (10_state.md R21): the bytes of a register lie at its place in the slot order. -/

namespace Sys2Proof.Machine

/-- Where each item of a list is laid out as two cells, item `i` has its cells at `2 * i` and `2 * i + 1`. -/
theorem getElem?_flatMap_pair {α β : Type} (first second : α → β) {items : List α} {i : Nat} {x : α}
    (h : items[i]? = some x) :
    (items.flatMap fun y => [first y, second y])[2 * i]? = some (first x) ∧
    (items.flatMap fun y => [first y, second y])[2 * i + 1]? = some (second x) := by
  induction items generalizing i with
  | nil => simp at h
  | cons y rest ih =>
    cases i with
    | zero =>
      obtain rfl : y = x := by simpa using h
      exact ⟨rfl, rfl⟩
    | succ i => exact ih h

/-- The slot order agrees with the ordinals (R20). -/
theorem Reg.all_getElem?_ordinal (r : Reg) : Reg.all[r.ordinal]? = some r := by
  cases r <;> rfl

@[simp] theorem RegFile.buffer_length (f : RegFile) : f.buffer.length = 24 := rfl

theorem RegFile.buffer_getElem?_ordinal (f : RegFile) (r : Reg) :
    f.buffer[2 * r.ordinal]? = some (hiByte (f.read r)) ∧
    f.buffer[2 * r.ordinal + 1]? = some (loByte (f.read r)) :=
  getElem?_flatMap_pair (fun q => hiByte (f.read q)) (fun q => loByte (f.read q)) (Reg.all_getElem?_ordinal r)

/-- Settles O6: a register's bytes lie where the slot order puts them, and the register file's read and write
laws give the round trip and the frame. -/
theorem registerBufferAndRoundTrip : Obligations.RegisterBufferAndRoundTrip :=
  ⟨fun f r => ⟨f.buffer_length, f.buffer_getElem?_ordinal r⟩,
    fun f r _ v => ⟨f.read_write_self r v, f.read_write_ne v⟩⟩

end Sys2Proof.Machine
end

section
/-! The memory port (20_memory.md R53 to R56) in the terms of the statements: what an access leaves unchanged,
and the state that an access out of bounds leaves. -/

namespace Sys2Proof.Machine

open Sys2Proof.Claims

/-! ## Out of bounds -/

/-- InvalidAddress leaves FAULTED with its record, and nothing else changed (R55, R222). -/
theorem faultedFrom_invalidAddress (s : State) (a : Word) (n : Nat) (k : AccessKind) :
    FaultedFrom s (s.takeFault (.invalidAddress a n k)) 1 k.code a (BitVec.ofNat 2 n) := rfl

theorem read8_faultedFrom {s : State} {a : Word} (h : s.cfg.memSize < a.toNat + 1) :
    ∃ t, read8 a s = .faulted t ∧ FaultedFrom s t 1 0 a 1 :=
  ⟨_, read8_fault (Nat.not_le.mpr h), faultedFrom_invalidAddress s a 1 .fetch⟩

theorem read16_faultedFrom {s : State} {a : Word} (h : s.cfg.memSize < a.toNat + 2) (k : AccessKind) :
    ∃ t, read16 k a s = .faulted t ∧ FaultedFrom s t 1 k.code a 2 :=
  ⟨_, read16_fault (Nat.not_le.mpr h), faultedFrom_invalidAddress s a 2 k⟩

theorem write16_faultedFrom {s : State} {a : Word} (h : s.cfg.memSize < a.toNat + 2) (v : Word) :
    ∃ t, write16 a v s = .faulted t ∧ FaultedFrom s t 1 2 a 2 :=
  ⟨_, write16_fault (Nat.not_le.mpr h), faultedFrom_invalidAddress s a 2 .write⟩

/-- A word at the last address of the address space, or of the memory, has its second byte past the end (R56). -/
theorem memSize_lt_of_last_address {c : Config} (hc : c.wf) {a : Word}
    (ha : a = 0xFFFF ∨ a.toNat = c.memSize - 1) : c.memSize < a.toNat + 2 := by
  obtain ⟨hmin, hmax, -⟩ := hc
  rcases ha with rfl | ha
  · rw [show (0xFFFF : Word).toNat = 65535 from rfl]
    omega
  · omega

/-! ## In bounds -/

/-- The word at an address as a number: its first byte is the more significant (R54). -/
theorem Memory.readWord_toNat (m : Memory) (a : Nat) :
    (m.readWord a).toNat = 256 * (m.read a).toNat + (m.read (a + 1)).toNat :=
  joinBytes_toNat _ _

/-- Replacing the memory keeps every register. -/
theorem regsKeptBut_setMem (ds : List Reg) (s : State) (m : Memory) : RegsKeptBut ds s (s.setMem m) :=
  fun r _ => s.reg_setMem m r

/-- Replacing the memory keeps the parameters, the step state, the record and the latch. -/
theorem sameControl_setMem (s : State) (m : Memory) : SameControl s (s.setMem m) :=
  ⟨s.setMem_cfg m, s.setMem_engine m, s.setMem_fault m, s.setMem_instrStart m⟩

/-- Storing a word keeps every byte but its two (R54). -/
theorem memKeptOutside_writeWord (s : State) (a v : Word) :
    MemKeptOutside a s (s.setMem (s.mem.writeWord a.toNat v)) :=
  fun _ hfirst hsecond => Memory.read_writeWord_ne s.mem v hfirst hsecond

/-- A word stored in bounds is held, the high byte first (R54). -/
theorem holdsWord_writeWord {s : State} (hw : Memory.wf s.cfg.memSize s.mem) {a : Word} (ha : WordOk s a)
    (v : Word) : HoldsWord (s.setMem (s.mem.writeWord a.toNat v)) a v :=
  ⟨Memory.read_writeWord_hi hw v, Memory.read_writeWord_lo hw (Nat.le_of_succ_le ha) v⟩

/-- The two bytes of a held word as numbers. -/
theorem toNat_bytes_of_holdsWord {s : State} {a v : Word} (h : HoldsWord s a v) :
    (s.mem.read a.toNat).toNat = v.toNat / 256 ∧ (s.mem.read (a.toNat + 1)).toNat = v.toNat % 256 := by
  obtain ⟨hhi, hlo⟩ := h
  rw [hhi, hlo, hiByte_toNat, loByte_toNat]
  exact ⟨rfl, rfl⟩

/-! ## The obligations -/

/-- Settles O7: each access by its two cases, in bounds and out of bounds. -/
theorem memoryPortIsBigEndianAndBounded : Obligations.MemoryPortIsBigEndianAndBounded := by
  intro s a v k hw
  refine ⟨read8_ok, read8_faultedFrom, fun ha => ⟨?read, ?write⟩,
    fun ha => ⟨read16_faultedFrom ha k, write16_faultedFrom ha v⟩⟩
  case read => exact ⟨_, read16_ok ha, s.mem.readWord_toNat a.toNat⟩
  case write =>
    obtain ⟨hhi, hlo⟩ := toNat_bytes_of_holdsWord (holdsWord_writeWord hw ha v)
    exact ⟨_, write16_ok ha, hhi, hlo, memKeptOutside_writeWord s a v, regsKeptBut_setMem [] s _,
      s.setMem_cnt _, sameControl_setMem s _⟩

/-- Settles O8: either address is out of bounds for a word, so the access takes the fault. -/
theorem wordAccessNeverWraps : Obligations.WordAccessNeverWraps := by
  intro s a v k hc ha
  have hout : s.cfg.memSize < a.toNat + 2 := memSize_lt_of_last_address hc ha
  exact ⟨read16_faultedFrom hout k, write16_faultedFrom hout v⟩

end Sys2Proof.Machine
end

section
/-! Selector bytes (30_encoding.md R74). -/

namespace Sys2Proof

theorem selectReg_ordinal (b : Byte) : (selectReg b).ordinal = b.toNat % 12 := by
  obtain ⟨r, -, hr⟩ := Reg.ofOrdinal_of_lt (Nat.mod_lt b.toNat (show 0 < 12 by decide))
  rw [selectReg_eq_of_ordinal hr.symm, hr]

/-- Bytes that agree modulo 12 select the same register. -/
theorem selectReg_congr {a b : Byte} (h : a.toNat % 12 = b.toNat % 12) : selectReg a = selectReg b :=
  selectReg_eq_of_ordinal (h.trans (selectReg_ordinal b).symm)

theorem selectReg_offset (b : Byte) : (selectReg b).offset = b.toNat % 12 * 2 := by
  rw [Reg.offset, selectReg_ordinal, Nat.mul_comm]

/-- Settles O3: the ordinal is the byte's remainder, which a multiple of 12 does not change, and the canonical
selector of a register selects it. -/
theorem selectorByteIsReducedModuloTwelve : Obligations.SelectorByteIsReducedModuloTwelve := by
  refine ⟨fun b => ⟨selectReg_ordinal b, selectReg_offset b⟩, fun b k hk => selectReg_congr ?_,
    selectReg_selector⟩
  have hval : (BitVec.ofNat 8 (b.toNat + 12 * k)).toNat = b.toNat + 12 * k :=
    Nat.mod_eq_of_lt (Nat.lt_succ_of_le hk)
  rw [hval, Nat.add_mul_mod_self_left]

end Sys2Proof
end

section
/-! Lengths and exact matching (30_encoding.md R76, R79): how many bytes an operand plan reads, whatever the
bytes are, and so how many an opcode byte asks for. -/

namespace Sys2Proof

open Sys2Proof.Claims

/-! ## What a plan reads -/

/-- The plan reads `n` bytes, whatever they are, and every instruction it can give meets `P`. -/
inductive Plan.Reads (P : Instr → Prop) : Nat → Plan → Prop where
  | done {i : Instr} (h : P i) : Plan.Reads P 0 (.done i)
  | reg {n : Nat} {k : Reg → Plan} (h : ∀ r, Plan.Reads P n (k r)) : Plan.Reads P (n + 1) (.reg k)
  | ord {n : Nat} {k : Byte → Plan} (h : ∀ b, Plan.Reads P n (k b)) : Plan.Reads P (n + 1) (.ord k)
  | imm16 {n : Nat} {k : Word → Plan} (h : ∀ v, Plan.Reads P n (k v)) : Plan.Reads P (n + 2) (.imm16 k)

/-- Over too few bytes a plan is rejected by its opcode's name. -/
theorem Plan.Reads.onBytes_truncated {P : Instr → Prop} {n : Nat} {p : Plan} (h : p.Reads P n) (op : Byte)
    {bs : List Byte} (hlen : bs.length < n) : p.onBytes op bs = .error (.truncated op) := by
  induction h generalizing bs with
  | done _ => exact absurd hlen (Nat.not_lt_zero _)
  | reg _ ih =>
    cases bs with
    | nil => rfl
    | cons b rest => exact ih (selectReg b) (Nat.lt_of_succ_lt_succ hlen)
  | ord _ ih =>
    cases bs with
    | nil => rfl
    | cons b rest => exact ih b (Nat.lt_of_succ_lt_succ hlen)
  | imm16 _ ih =>
    match bs with
    | [] => rfl
    | [_] => rfl
    | hi :: lo :: rest => exact ih (joinBytes hi lo) (Nat.lt_of_add_lt_add_right (n := 2) hlen)

/-- Over enough bytes a plan gives an instruction and leaves the bytes after the first `n`. -/
theorem Plan.Reads.onBytes_ok {P : Instr → Prop} {n : Nat} {p : Plan} (h : p.Reads P n) (op : Byte)
    {bs : List Byte} (hlen : n ≤ bs.length) : ∃ i, p.onBytes op bs = .ok (i, bs.drop n) ∧ P i := by
  induction h generalizing bs with
  | @done i hi => exact ⟨i, rfl, hi⟩
  | reg _ ih =>
    cases bs with
    | nil => exact absurd hlen (Nat.not_succ_le_zero _)
    | cons b rest => exact ih (selectReg b) (Nat.le_of_succ_le_succ hlen)
  | ord _ ih =>
    cases bs with
    | nil => exact absurd hlen (Nat.not_succ_le_zero _)
    | cons b rest => exact ih b (Nat.le_of_succ_le_succ hlen)
  | imm16 _ ih =>
    match bs with
    | [] => exact absurd hlen (Nat.not_succ_le_zero _)
    | [_] => exact absurd (Nat.le_of_succ_le_succ hlen) (Nat.not_succ_le_zero _)
    | hi :: lo :: rest => exact ih (joinBytes hi lo) (Nat.le_of_add_le_add_right hlen)

/-- Whatever instruction a plan gives meets `P`. -/
theorem Plan.Reads.of_onBytes_eq_ok {P : Instr → Prop} {n : Nat} {p : Plan} (h : p.Reads P n) {op : Byte}
    {bs rest : List Byte} {i : Instr} (hok : p.onBytes op bs = .ok (i, rest)) : P i := by
  rcases Nat.lt_or_ge bs.length n with hlen | hlen
  · rw [h.onBytes_truncated op hlen] at hok
    cases hok
  · obtain ⟨j, hj, hP⟩ := h.onBytes_ok op hlen
    rw [hj] at hok
    cases hok
    exact hP

/-! ## The length of an operation -/

/-- The number of operand bytes of an operation (R72). -/
def Op.operandLength : Op → Nat
  | .jmpNotEq => 4
  | .movLitReg | .movRegMem | .movMemReg => 3
  | .movRegReg | .addRegReg | .pshLit | .calLit => 2
  | .pshReg | .pop | .calReg => 1
  | .ret => 0

theorem operandPlan_reads (m : OpcodeMap) (o : Op) :
    (operandPlan o).Reads (fun i => i.wf m = true ∧ i.length = o.operandLength + 1) o.operandLength := by
  cases o with
  | movLitReg | movMemReg => exact .imm16 fun _ => .reg fun _ => .done ⟨rfl, rfl⟩
  | movRegReg => exact .reg fun _ => .reg fun _ => .done ⟨rfl, rfl⟩
  | movRegMem => exact .reg fun _ => .imm16 fun _ => .done ⟨rfl, rfl⟩
  | addRegReg => exact .ord fun _ => .ord fun _ => .done ⟨rfl, rfl⟩
  | jmpNotEq => exact .imm16 fun _ => .imm16 fun _ => .done ⟨rfl, rfl⟩
  | pshLit | calLit => exact .imm16 fun _ => .done ⟨rfl, rfl⟩
  | pshReg | pop | calReg => exact .reg fun _ => .done ⟨rfl, rfl⟩
  | ret => exact .done ⟨rfl, rfl⟩

theorem OpcodeMap.byteOf_inj {m : OpcodeMap} (hm : m.wf) {o p : Op} : m.byteOf o = m.byteOf p ↔ o = p :=
  ⟨OpcodeMap.byteOf_injective hm, congrArg m.byteOf⟩

/-- R76's table by operation: under distinct bytes each comparison of bytes is one of operations. -/
theorem lengthOfOpcode_byteOf {m : OpcodeMap} (hm : m.wf) (o : Op) :
    lengthOfOpcode m (m.byteOf o) = o.operandLength + 1 := by
  have byOperation : ∀ op, lengthOfOpcode m op =
      if op = m.byteOf .jmpNotEq then 5
      else if op = m.byteOf .movLitReg ∨ op = m.byteOf .movRegMem ∨ op = m.byteOf .movMemReg then 4
      else if op = m.byteOf .movRegReg ∨ op = m.byteOf .addRegReg ∨ op = m.byteOf .pshLit ∨
        op = m.byteOf .calLit then 3
      else if op = m.byteOf .pshReg ∨ op = m.byteOf .pop ∨ op = m.byteOf .calReg then 2
      else 1 := fun _ => rfl
  simp only [byOperation, OpcodeMap.byteOf_inj hm]
  cases o <;> rfl

theorem lengthOfOpcode_unassigned {m : OpcodeMap} {op : Byte} (h : op ∉ m.bytes) : lengthOfOpcode m op = 1 := by
  simp only [OpcodeMap.bytes, List.mem_cons, List.not_mem_nil, or_false, not_or] at h
  simp [lengthOfOpcode, h]

/-! ## The decoder -/

theorem Instr.wf_unassigned_iff {m : OpcodeMap} {b : Byte} :
    (Instr.unassigned b).wf m = true ↔ b ∉ m.bytes := by
  simp [Instr.wf]

/-- The plan of an opcode byte reads the rest of the byte's length, to a well-formed instruction of that length
(R76, R84). -/
theorem planFor_reads {m : OpcodeMap} (hm : m.wf) (op : Byte) :
    (planFor m op).Reads (fun i => i.wf m = true ∧ i.length = lengthOfOpcode m op)
      (lengthOfOpcode m op - 1) := by
  by_cases hop : op ∈ m.bytes
  · obtain ⟨o, rfl⟩ := OpcodeMap.exists_of_mem_bytes hop
    rw [planFor_byteOf hm, lengthOfOpcode_byteOf hm]
    exact operandPlan_reads m o
  · rw [planFor_unassigned hop, lengthOfOpcode_unassigned hop]
    exact .done ⟨Instr.wf_unassigned_iff.mpr hop, rfl⟩

/-- The decoder gives well-formed instructions only (R84). -/
theorem wf_of_decode_eq_ok {m : OpcodeMap} (hm : m.wf) {op : Byte} {bs rest : List Byte} {i : Instr}
    (h : decode m (op :: bs) = .ok (i, rest)) : i.wf m = true :=
  ((planFor_reads hm op).of_onBytes_eq_ok h).left

theorem decode_unassigned {m : OpcodeMap} {op : Byte} (h : op ∉ m.bytes) (rest : List Byte) :
    decode m (op :: rest) = .ok (.unassigned op, rest) := by
  rw [decode, planFor_unassigned h, Plan.onBytes_done]

theorem OpcodeMap.lookup_eq_none_iff {m : OpcodeMap} (hm : m.wf) {op : Byte} :
    m.lookup op = none ↔ op ∉ m.bytes := by
  refine ⟨fun h hop => ?_, OpcodeMap.lookup_eq_none⟩
  obtain ⟨o, rfl⟩ := OpcodeMap.exists_of_mem_bytes hop
  exact absurd ((OpcodeMap.lookup_of_byteOf hm o).symm.trans h) (Option.some_ne_none o)

/-- A lookup finds the one operation whose byte is the whole opcode byte (R79). -/
theorem OpcodeMap.lookup_eq_some_iff {m : OpcodeMap} (hm : m.wf) {op : Byte} {o : Op} :
    m.lookup op = some o ↔ m.byteOf o = op := by
  constructor
  · intro h
    simpa using List.find?_some h
  · rintro rfl
    exact OpcodeMap.lookup_of_byteOf hm o

/-! ## The obligations -/

/-- Settles O2: the plan of an opcode byte reads one byte less than the byte's length. -/
theorem lengthDependsOnTheOpcodeByteOnly : Obligations.LengthDependsOnTheOpcodeByteOnly :=
  fun _ op _ hm =>
    ⟨fun hshort => (planFor_reads hm op).onBytes_truncated op (Nat.lt_sub_of_add_lt hshort),
      fun henough => (planFor_reads hm op).onBytes_ok op (Nat.sub_le_of_le_add henough)⟩

/-- Settles O4: a byte of the map decodes to no unassigned instruction, since what decodes is well-formed. -/
theorem opcodeMatchIsExact : Obligations.OpcodeMatchIsExact :=
  fun _ _ rest hm =>
    ⟨fun _ => OpcodeMap.lookup_eq_some_iff hm, OpcodeMap.lookup_eq_none_iff hm,
      fun h => Instr.wf_unassigned_iff.mp (wf_of_decode_eq_ok hm h), fun h => decode_unassigned h rest⟩

end Sys2Proof
end

section
/-! The state after a fetch, and the bytes of the instruction stream (40_fetch_decode.md R101 to R103). -/

namespace Sys2Proof.Machine

open Sys2Proof.Claims

/-- A second write of a register replaces the first. -/
@[simp] theorem State.setReg_setReg (s : State) (r : Reg) (v w : Word) :
    (s.setReg r v).setReg r w = s.setReg r w := by
  cases r <;> rfl

/-- Writing back what a register holds changes nothing. -/
@[simp] theorem State.setReg_reg_self (s : State) (r : Reg) : s.setReg r (s.reg r) = s := by
  cases r <;> rfl

/-- `ip` moved past `w` bytes (R102, R103). -/
def pastBytes (s : State) (w : Nat) : State := s.setReg .ip (s.reg .ip + BitVec.ofNat 16 w)

theorem pastBytes_mem (s : State) (w : Nat) : (pastBytes s w).mem = s.mem := rfl

@[simp] theorem reg_ip_pastBytes (s : State) (w : Nat) :
    (pastBytes s w).reg .ip = s.reg .ip + BitVec.ofNat 16 w := by
  simp [pastBytes]

@[simp] theorem pastBytes_zero (s : State) : pastBytes s 0 = s := by
  simp [pastBytes]

@[simp] theorem pastBytes_pastBytes (s : State) (v w : Nat) :
    pastBytes (pastBytes s v) w = pastBytes s (v + w) := by
  simp [pastBytes, BitVec.ofNat_add, BitVec.add_assoc]

/-- The stream is a matter of memory alone. -/
theorem stream_congr {s t : State} (h : t.mem = s.mem) (a : Word) (n : Nat) : stream t a n = stream s a n := by
  induction n generalizing a with
  | zero => rfl
  | succ n ih => rw [stream, stream, h, ih]

/-- The stream after one byte, from the state past it. -/
theorem stream_succ (s : State) (n : Nat) : stream s (s.reg .ip) (n + 1) =
    s.mem.read (s.reg .ip).toNat :: stream (pastBytes s 1) ((pastBytes s 1).reg .ip) n := by
  rw [stream, reg_ip_pastBytes, stream_congr (pastBytes_mem s 1)]
  rfl

/-- The stream after a word in bounds, inside which `ip` does not wrap (20_memory.md R56). -/
theorem stream_succ_succ {s : State} (hc : s.cfg.wf) (hb : s.inBounds (s.reg .ip) 2) (n : Nat) :
    stream s (s.reg .ip) (n + 2) = s.mem.read (s.reg .ip).toNat :: s.mem.read ((s.reg .ip).toNat + 1) ::
      stream (pastBytes s 2) ((pastBytes s 2).reg .ip) n := by
  obtain ⟨-, hmax, -⟩ := hc
  have hnext : (s.reg .ip + 1).toNat = (s.reg .ip).toNat + 1 := by
    rw [State.inBounds] at hb
    rw [BitVec.toNat_add, show (1 : Word).toNat = 1 from rfl]
    omega
  rw [stream, stream, hnext, BitVec.add_assoc, reg_ip_pastBytes, stream_congr (pastBytes_mem s 2)]
  rfl

end Sys2Proof.Machine
end

section
/-! The fields of an operand plan (30_encoding.md R72), and what the plan answers over the instruction stream
(40_fetch_decode.md R102 to R109): one field first, then all of them. -/

namespace Sys2Proof

open Sys2Proof.Machine Sys2Proof.Claims

/-! ## Where the fields lie -/

/-- The plan, at offset `o` of an instruction whose layout is `fields`, has the fields `rest` still to read. -/
inductive Plan.Lays (fields : List (Nat × Nat)) : Nat → List (Nat × Nat) → Plan → Prop where
  | done {o : Nat} {i : Instr} (h : layout i = fields) : Plan.Lays fields o [] (.done i)
  | reg {o : Nat} {rest : List (Nat × Nat)} {k : Reg → Plan}
    (h : ∀ r, Plan.Lays fields (o + 1) rest (k r)) : Plan.Lays fields o ((o, 1) :: rest) (.reg k)
  | ord {o : Nat} {rest : List (Nat × Nat)} {k : Byte → Plan}
    (h : ∀ b, Plan.Lays fields (o + 1) rest (k b)) : Plan.Lays fields o ((o, 1) :: rest) (.ord k)
  | imm16 {o : Nat} {rest : List (Nat × Nat)} {k : Word → Plan}
    (h : ∀ v, Plan.Lays fields (o + 2) rest (k v)) : Plan.Lays fields o ((o, 2) :: rest) (.imm16 k)

theorem operandPlan_lays (o : Op) : ∃ rest, (operandPlan o).Lays ((0, 1) :: rest) 1 rest := by
  cases o with
  | movLitReg | movMemReg => exact ⟨_, .imm16 fun _ => .reg fun _ => .done rfl⟩
  | movRegReg => exact ⟨_, .reg fun _ => .reg fun _ => .done rfl⟩
  | movRegMem => exact ⟨_, .reg fun _ => .imm16 fun _ => .done rfl⟩
  | addRegReg => exact ⟨_, .ord fun _ => .ord fun _ => .done rfl⟩
  | jmpNotEq => exact ⟨_, .imm16 fun _ => .imm16 fun _ => .done rfl⟩
  | pshLit | calLit => exact ⟨_, .imm16 fun _ => .done rfl⟩
  | pshReg | pop | calReg => exact ⟨_, .reg fun _ => .done rfl⟩
  | ret => exact ⟨_, .done rfl⟩

/-- The plan of an opcode byte reads the fields after the opcode's own. -/
theorem planFor_lays (m : OpcodeMap) (op : Byte) : ∃ rest, (planFor m op).Lays ((0, 1) :: rest) 1 rest := by
  unfold planFor
  split
  · exact operandPlan_lays _
  · exact ⟨_, .done rfl⟩

/-- What a plan decodes to has the plan's layout. -/
theorem Plan.Lays.layout_eq {fields rest : List (Nat × Nat)} {o : Nat} {p : Plan} (h : p.Lays fields o rest)
    {op : Byte} {bs bs' : List Byte} {i : Instr} (hd : p.onBytes op bs = .ok (i, bs')) : layout i = fields := by
  induction h generalizing bs with
  | done h =>
    cases hd
    exact h
  | reg _ ih | ord _ ih =>
    cases bs with
    | nil => cases hd
    | cons b bs => exact ih _ hd
  | imm16 _ ih =>
    match bs with
    | [] => cases hd
    | [_] => cases hd
    | _ :: _ :: _ => exact ih _ hd

/-! ## One field -/

/-- A field in bounds is read: the plan goes on past it, over the rest of the bytes. -/
theorem Plan.Lays.runPlan_field_ok {fields rest : List (Nat × Nat)} {o q w : Nat} {p : Plan}
    (h : p.Lays fields o ((q, w) :: rest)) {s : State} (hc : s.cfg.wf) (hb : s.inBounds (s.reg .ip) w)
    {op : Byte} {n : Nat} {i : Instr} (hd : p.onBytes op (stream s (s.reg .ip) n) = .ok (i, [])) :
    ∃ p' n', n = w + n' ∧ p'.Lays fields (o + w) rest ∧ runPlan p s = runPlan p' (pastBytes s w) ∧
      p'.onBytes op (stream (pastBytes s w) ((pastBytes s w).reg .ip) n') = .ok (i, []) := by
  cases h with
  | @reg _ _ k h =>
    cases n with
    | zero => cases hd
    | succ n =>
      rw [stream_succ, Plan.onBytes_reg] at hd
      refine ⟨_, n, Nat.add_comm n 1, h _, ?_, hd⟩
      rw [runPlan_reg, fetchRegisterIndex_ok hb]
      rfl
  | @ord _ _ k h =>
    cases n with
    | zero => cases hd
    | succ n =>
      rw [stream_succ, Plan.onBytes_ord] at hd
      refine ⟨_, n, Nat.add_comm n 1, h _, ?_, hd⟩
      rw [runPlan_ord, fetch_ok hb]
      rfl
  | @imm16 _ _ k h =>
    match n with
    | 0 => cases hd
    | 1 => cases hd
    | n + 2 =>
      rw [stream_succ_succ hc hb, Plan.onBytes_imm16] at hd
      refine ⟨_, n, Nat.add_comm n 2, h _, ?_, hd⟩
      rw [runPlan_imm16, fetch16_ok hb]
      rfl

/-- A field out of bounds faults as a fetch, before anything is read. -/
theorem Plan.Lays.runPlan_field_fault {fields rest : List (Nat × Nat)} {o q w : Nat} {p : Plan}
    (h : p.Lays fields o ((q, w) :: rest)) {s : State} (hb : ¬ s.inBounds (s.reg .ip) w) :
    runPlan p s = .faulted (s.takeFault (.invalidAddress (s.reg .ip) w .fetch)) := by
  cases h with
  | reg => rw [runPlan_reg, fetchRegisterIndex_fault hb, Res.bind_faulted]
  | ord => rw [runPlan_ord, fetch_fault hb, Res.bind_faulted]
  | imm16 => rw [runPlan_imm16, fetch16_fault hb, Res.bind_faulted]

/-- The first field to read lies at the plan's offset. -/
theorem Plan.Lays.offset_eq {fields rest : List (Nat × Nat)} {o q w : Nat} {p : Plan}
    (h : p.Lays fields o ((q, w) :: rest)) : q = o := by
  cases h <;> rfl

/-! ## All fields -/

/-- The field at offset `o` from `a` is in bounds when the access at `ip`, which is there, is. -/
theorem fieldOk_iff_inBounds {s : State} {a : Word} {o : Nat} (hip : s.reg .ip = a + BitVec.ofNat 16 o)
    (w : Nat) : FieldOk s a (o, w) ↔ s.inBounds (s.reg .ip) w := by
  rw [hip]

/-- From an offset of `a`, `ip` moves to a later one. -/
theorem reg_ip_pastBytes_offset {s : State} {a : Word} {o : Nat} (hip : s.reg .ip = a + BitVec.ofNat 16 o)
    (w : Nat) : (pastBytes s w).reg .ip = a + BitVec.ofNat 16 (o + w) := by
  rw [reg_ip_pastBytes, hip, BitVec.ofNat_add, BitVec.add_assoc]

/-- A plan whose fields are all in bounds answers what the decoder reads from the same bytes (R80, R109). -/
theorem Plan.Lays.runPlan_ok {fields rest : List (Nat × Nat)} {o : Nat} {p : Plan} (h : p.Lays fields o rest)
    {s : State} {a : Word} (hc : s.cfg.wf) (hip : s.reg .ip = a + BitVec.ofNat 16 o) {op : Byte} {n : Nat}
    {i : Instr} (hd : p.onBytes op (stream s (s.reg .ip) n) = .ok (i, []))
    (hf : ∀ f ∈ rest, FieldOk s a f) : runPlan p s = .ok i (pastBytes s n) := by
  induction rest generalizing s o p n with
  | nil =>
    cases h with
    | done =>
      cases n with
      | zero =>
        cases hd
        rw [runPlan_done, pastBytes_zero]
      | succ n => cases hd
  | cons f rest ih =>
    obtain ⟨q, w⟩ := f
    obtain ⟨hfirst, hrest⟩ := List.forall_mem_cons.mp hf
    obtain rfl := h.offset_eq
    obtain ⟨p', n', rfl, h', hrun, hd'⟩ := h.runPlan_field_ok hc ((fieldOk_iff_inBounds hip w).mp hfirst) hd
    rw [hrun, ih (s := pastBytes s w) h' hc (reg_ip_pastBytes_offset hip w) hd' hrest, pastBytes_pastBytes]

/-- A plan faults at the first of its fields that is out of bounds, with `ip` at that field (R222). -/
theorem Plan.Lays.runPlan_fault {fields before after : List (Nat × Nat)} {o q w : Nat} {p : Plan}
    (h : p.Lays fields o (before ++ (q, w) :: after)) {s : State} {a : Word} (hc : s.cfg.wf)
    (hip : s.reg .ip = a + BitVec.ofNat 16 o) {op : Byte} {n : Nat}
    {i : Instr} (hd : p.onBytes op (stream s (s.reg .ip) n) = .ok (i, []))
    (hf : ∀ f ∈ before, FieldOk s a f) (hn : ¬ FieldOk s a (q, w)) :
    runPlan p s = .faulted ((s.setReg .ip (a + BitVec.ofNat 16 q)).takeFault
      (.invalidAddress (a + BitVec.ofNat 16 q) w .fetch)) := by
  induction before generalizing s o p n with
  | nil =>
    obtain rfl := h.offset_eq
    rw [h.runPlan_field_fault (mt (fieldOk_iff_inBounds hip w).mpr hn), ← hip, State.setReg_reg_self]
  | cons f before ih =>
    obtain ⟨u, v⟩ := f
    obtain ⟨hfirst, hrest⟩ := List.forall_mem_cons.mp hf
    obtain rfl := h.offset_eq
    obtain ⟨p', n', rfl, h', hrun, hd'⟩ := h.runPlan_field_ok hc ((fieldOk_iff_inBounds hip v).mp hfirst) hd
    rw [hrun, ih (s := pastBytes s v) h' hc (reg_ip_pastBytes_offset hip v) hd' hrest hn]
    simp [pastBytes]

end Sys2Proof
end

section
/-! A body, a step and an execute along the decoded instruction (40_fetch_decode.md R106 to R108, R112). -/

namespace Sys2Proof.Machine

open Sys2Proof.Claims

/-! ## Layouts -/

/-- The opcode's field comes first. -/
theorem layout_eq_cons (i : Instr) : layout i = (0, 1) :: (layout i).tail := by
  cases i <;> rfl

theorem layout_pairwise_lt (i : Instr) : (layout i).Pairwise fun f g => f.1 < g.1 := by
  cases i <;> simp [layout]

/-- The operand fields are those after offset 0. -/
theorem mem_tail_layout_iff {i : Instr} {o w : Nat} : (o, w) ∈ (layout i).tail ↔ (o, w) ∈ layout i ∧ 0 < o := by
  have hlt := layout_pairwise_lt i
  rw [layout_eq_cons i, List.pairwise_cons] at hlt
  obtain ⟨hpos, -⟩ := hlt
  refine ⟨fun h => ⟨List.mem_of_mem_tail h, hpos _ h⟩, fun ⟨h, ho⟩ => ?_⟩
  rw [layout_eq_cons i] at h
  rcases List.mem_cons.mp h with h | h
  · cases h
    exact absurd ho (Nat.lt_irrefl 0)
  · exact h

/-- An operand field comes after those of smaller offset only. -/
theorem exists_tail_layout_split {i : Instr} {o w : Nat} (h : (o, w) ∈ (layout i).tail) :
    ∃ before after, (layout i).tail = before ++ (o, w) :: after ∧ ∀ f ∈ before, f.1 < o := by
  obtain ⟨before, after, hsplit⟩ := List.append_of_mem h
  have hlt := (layout_pairwise_lt i).tail
  rw [hsplit, List.pairwise_append] at hlt
  obtain ⟨-, -, hbefore⟩ := hlt
  exact ⟨before, after, hsplit, fun f hf => hbefore f hf _ List.mem_cons_self⟩

/-- A field placed from the byte before an address is one byte further along. -/
theorem fieldOk_succ_iff {s : State} {a : Word} {o w : Nat} :
    FieldOk s a (o + 1, w) ↔ FieldOk s (a + 1) (o, w) := by
  rw [FieldOk, FieldOk, Nat.add_comm o 1, BitVec.ofNat_add, ← BitVec.add_assoc]
  rfl

/-- The opcode's field is in bounds when the byte at `ip` is. -/
theorem opcodeOk_iff_inBounds {s : State} : FieldOk s (s.reg .ip) (0, 1) ↔ s.inBounds (s.reg .ip) 1 :=
  fieldOk_iff_inBounds (BitVec.add_zero _).symm 1

/-! ## The body of an opcode -/

/-- The plan of an opcode byte reads the operand fields of what the byte decodes to. -/
theorem planFor_lays_of_decode {m : OpcodeMap} {op : Byte} {bs bs' : List Byte} {i : Instr}
    (hd : decode m (op :: bs) = .ok (i, bs')) : (planFor m op).Lays (layout i) 1 (layout i).tail := by
  obtain ⟨rest, h⟩ := planFor_lays m op
  rw [h.layout_eq hd]
  exact h

section

variable {s : State} {a : Word} {op : Byte} {n : Nat} {i : Instr} (hc : s.cfg.wf) (hip : s.reg .ip = a + 1)
  (hd : decode s.cfg.opcodeMap (op :: stream s (s.reg .ip) n) = .ok (i, []))
include hc hip hd

/-- Operand fields all in bounds: the body of an opcode is the effect of the decoded instruction, with `ip` past
its operands (R107). Fields are placed from `a`, where the opcode stands or would stand. -/
theorem executeBody_of_decode (hf : ∀ f ∈ (layout i).tail, FieldOk s a f) :
    executeBody op s = exec i (pastBytes s n) := by
  rw [executeBody, (planFor_lays_of_decode hd).runPlan_ok hc hip hd hf]

/-- The first operand field out of bounds is where the body of an opcode faults (R222). -/
theorem executeBody_fault_of_decode {before after : List (Nat × Nat)} {o w : Nat}
    (hsplit : (layout i).tail = before ++ (o, w) :: after) (hf : ∀ f ∈ before, FieldOk s a f)
    (hn : ¬ FieldOk s a (o, w)) : executeBody op s = .next ((s.setReg .ip (a + BitVec.ofNat 16 o)).takeFault
      (.invalidAddress (a + BitVec.ofNat 16 o) w .fetch)) := by
  have h := planFor_lays_of_decode hd
  rw [hsplit] at h
  rw [executeBody, h.runPlan_fault hc hip hd hf hn]

end

/-- The body of an unassigned opcode does nothing (R112). -/
theorem executeBody_unassigned {s : State} {op : Byte} (h : op ∉ s.cfg.opcodeMap.bytes) :
    executeBody op s = .next s := by
  rw [executeBody, planFor_unassigned h, runPlan_done]
  rfl

/-! ## The start and the end of a step -/

@[simp] theorem endStep_next (s : State) : endStep (.next s) = .next (s.setStart 0) := rfl

/-- The state after the fetch, from the start of the step. -/
theorem pastBytes_beginStep (s : State) (n : Nat) : pastBytes (beginStep s) n = afterFetch s n := rfl

theorem stream_beginStep (s : State) (n : Nat) :
    stream (beginStep s) ((beginStep s).reg .ip) n = stream s (s.reg .ip) n :=
  stream_congr (s := s) (t := beginStep s) rfl (s.reg .ip) n

/-- The end of a step that a fetch has faulted, with `ip` at the field. -/
theorem endStep_fetchFault (s : State) (o w : Nat) :
    endStep (.next (((beginStep s).setReg .ip (s.reg .ip + BitVec.ofNat 16 o)).takeFault
      (.invalidAddress (s.reg .ip + BitVec.ofNat 16 o) w .fetch))) = .next (fetchFault s o w) := rfl

/-! ## Steps -/

/-- An opcode in bounds: a step is the body of the byte at `ip` (R106). -/
theorem step_of_opcode_inBounds {s : State} (hr : s.engine = .ready) (hb : s.inBounds (s.reg .ip) 1) :
    step s = endStep (executeBody ((beginStep s).mem.read ((beginStep s).reg .ip).toNat)
      (pastBytes (beginStep s) 1)) := by
  rw [step_of_ready hr, fetchAndExecute, fetch_ok (s := beginStep s) hb]
  rfl

/-- An opcode out of bounds: a step faults at it. -/
theorem step_of_opcode_outOfBounds {s : State} (hr : s.engine = .ready) (hb : ¬ s.inBounds (s.reg .ip) 1) :
    step s = .next (fetchFault s 0 1) := by
  rw [step_of_ready hr, fetchAndExecute, fetch_fault (s := beginStep s) hb, ← endStep_fetchFault, BitVec.add_zero,
    show (beginStep s).setReg .ip (s.reg .ip) = beginStep s from State.setReg_reg_self _ _]
  rfl

section

variable {s : State} {i : Instr} {n : Nat} (hc : s.cfg.wf) (hr : s.engine = .ready)
  (hd : decode s.cfg.opcodeMap (stream s (s.reg .ip) n) = .ok (i, []))
include hc hr hd

/-- Fields all in bounds: a step is the effect of the instruction the decoder reads at `ip` (R106). -/
theorem step_of_decode (hf : ∀ f ∈ layout i, FieldOk s (s.reg .ip) f) :
    step s = endStep (exec i (afterFetch s n)) := by
  cases n with
  | zero => cases hd
  | succ n =>
    rw [← stream_beginStep, stream_succ (beginStep s)] at hd
    rw [layout_eq_cons i] at hf
    obtain ⟨hopcode, hoperands⟩ := List.forall_mem_cons.mp hf
    rw [step_of_opcode_inBounds hr (opcodeOk_iff_inBounds.mp hopcode),
      executeBody_of_decode (s := pastBytes (beginStep s) 1) hc (reg_ip_pastBytes _ 1) hd hoperands,
      pastBytes_pastBytes, Nat.add_comm 1 n, pastBytes_beginStep]

/-- The first field out of bounds, the opcode's or an operand's, is where a step faults (R102, R103, R222). -/
theorem step_fault_of_decode {before after : List (Nat × Nat)} {o w : Nat}
    (hsplit : layout i = before ++ (o, w) :: after) (hf : ∀ f ∈ before, FieldOk s (s.reg .ip) f)
    (hn : ¬ FieldOk s (s.reg .ip) (o, w)) : step s = .next (fetchFault s o w) := by
  cases n with
  | zero => cases hd
  | succ n =>
    rw [← stream_beginStep, stream_succ (beginStep s)] at hd
    rw [layout_eq_cons i] at hsplit
    cases before with
    | nil =>
      cases hsplit
      exact step_of_opcode_outOfBounds hr (mt opcodeOk_iff_inBounds.mpr hn)
    | cons f before =>
      obtain ⟨rfl, htail⟩ := List.cons_eq_cons.mp hsplit
      obtain ⟨hopcode, hoperands⟩ := List.forall_mem_cons.mp hf
      rw [step_of_opcode_inBounds hr (opcodeOk_iff_inBounds.mp hopcode),
        executeBody_fault_of_decode (s := pastBytes (beginStep s) 1) hc (reg_ip_pastBytes _ 1) hd htail
          hoperands hn,
        pastBytes, State.setReg_setReg]
      exact endStep_fetchFault s o w

end

/-- Bytes that decode to an instruction run as it (R72, R106). -/
theorem runsAs_of_decode {m : OpcodeMap} {bytes : List Byte} {i : Instr}
    (hd : m.wf → decode m bytes = .ok (i, [])) : RunsAs m bytes (layout i) i := by
  rintro s hc hr rfl hbytes
  have hs : decode s.cfg.opcodeMap (stream s (s.reg .ip) bytes.length) = .ok (i, []) := by
    obtain ⟨-, -, hm⟩ := hc
    rw [hbytes, hd hm]
  exact ⟨step_of_decode hc hr hs, fun _ _ _ _ => step_fault_of_decode hc hr hs⟩

/-! ## Execute -/

section

variable {s : State} {op : Byte} {i : Instr} {n : Nat} (hc : s.cfg.wf) (hr : s.engine = .ready)
  (hd : decode s.cfg.opcodeMap (op :: stream s (s.reg .ip) n) = .ok (i, []))
include hc hr hd

/-- Operand fields all in bounds: an execute is the effect of the instruction whose operands are at `ip`
(R108). -/
theorem executeOpcode_of_decode (hf : ∀ o w, (o + 1, w) ∈ layout i → FieldOk s (s.reg .ip) (o, w)) :
    executeOpcode op s = endStep (exec i (afterFetch s n)) := by
  obtain ⟨a, hip⟩ : ∃ a, s.reg .ip = a + 1 := ⟨s.reg .ip - 1, (BitVec.sub_add_cancel _ _).symm⟩
  rw [← stream_beginStep] at hd
  have hoperands : ∀ f ∈ (layout i).tail, FieldOk (beginStep s) a f := by
    rintro ⟨p, w⟩ hmem
    obtain ⟨hlayout, hpos⟩ := mem_tail_layout_iff.mp hmem
    obtain ⟨o, rfl⟩ := Nat.exists_eq_succ_of_ne_zero (Nat.ne_of_gt hpos)
    exact fieldOk_succ_iff.mpr (hip ▸ hf o w hlayout)
  rw [executeOpcode_of_ready op hr, executeBody_of_decode (s := beginStep s) hc hip hd hoperands,
    pastBytes_beginStep]

/-- The first operand field out of bounds is where an execute faults (R108, R222). -/
theorem executeOpcode_fault_of_decode {o w : Nat} (hmem : (o + 1, w) ∈ layout i)
    (hn : ¬ FieldOk s (s.reg .ip) (o, w))
    (hf : ∀ p v, (p + 1, v) ∈ layout i → p < o → FieldOk s (s.reg .ip) (p, v)) :
    executeOpcode op s = .next (fetchFault s o w) := by
  obtain ⟨a, hip⟩ : ∃ a, s.reg .ip = a + 1 := ⟨s.reg .ip - 1, (BitVec.sub_add_cancel _ _).symm⟩
  rw [← stream_beginStep] at hd
  rw [hip] at hf hn
  obtain ⟨before, after, hsplit, hlt⟩ :=
    exists_tail_layout_split (mem_tail_layout_iff.mpr ⟨hmem, Nat.succ_pos o⟩)
  have hbefore : ∀ f ∈ before, FieldOk (beginStep s) a f := by
    rintro ⟨p, v⟩ hp
    obtain ⟨hlayout, hpos⟩ := mem_tail_layout_iff.mp (hsplit ▸ List.mem_append_left _ hp)
    obtain ⟨p, rfl⟩ := Nat.exists_eq_succ_of_ne_zero (Nat.ne_of_gt hpos)
    exact fieldOk_succ_iff.mpr (hf p v hlayout (Nat.lt_of_succ_lt_succ (hlt _ hp)))
  have hplace : a + BitVec.ofNat 16 (o + 1) = s.reg .ip + BitVec.ofNat 16 o := by
    rw [hip, Nat.add_comm o 1, BitVec.ofNat_add, ← BitVec.add_assoc]
    rfl
  rw [executeOpcode_of_ready op hr, executeBody_fault_of_decode (s := beginStep s) hc hip hd hsplit hbefore
    (mt fieldOk_succ_iff.mp hn), hplace, endStep_fetchFault]

end

/-- An execute of an unassigned opcode changes nothing (R108, R112). -/
theorem executeOpcode_unassigned {s : State} {op : Byte} (hr : s.engine = .ready) (hl : s.instrStart = 0)
    (h : op ∉ s.cfg.opcodeMap.bytes) : executeOpcode op s = .next s := by
  rw [executeOpcode_of_ready op hr, executeBody_unassigned (s := beginStep s) h, endStep_next, beginStep,
    State.setStart_setStart, ← hl]
  rfl

/-! ## The obligations -/

/-- Settles O13: the operands are read as in a step whose opcode stood just before `ip`. -/
theorem executeOpcodeSkipsTheOpcodeFetch : Obligations.ExecuteOpcodeSkipsTheOpcodeFetch :=
  ⟨fun _ _ _ hc hr hd hf => executeOpcode_of_decode hc hr hd hf,
    fun _ _ _ hc hr hd _ _ hmem hn hf => executeOpcode_fault_of_decode hc hr hd hmem hn hf,
    fun _ _ hr hl h => executeOpcode_unassigned hr hl h,
    fun _ op h => executeOpcode_of_faulted op h⟩

/-- Settles O17: the byte alone decodes to itself, and its effect is nothing. -/
theorem unassignedOpcodeIsANoOp : Obligations.UnassignedOpcodeIsANoOp :=
  ⟨fun _ _ h => runsAs_of_decode fun _ => decode_unassigned h [],
    fun _ _ => rfl,
    fun _ _ hr hl h => executeOpcode_unassigned hr hl h⟩

end Sys2Proof.Machine
end

section
/-! What the host gets from a step or an execute, and what its commands leave of FAULTED (40_fetch_decode.md
R111, R113, R116). -/

namespace Sys2Proof.Machine

open Sys2Proof.Claims

/-! ## Commands in FAULTED -/

theorem command_step_of_faulted {s : State} (h : s.engine = .faulted) :
    command .step s = (.result (.fault s.fault), s) := by
  rw [command, step_of_faulted h]
  rfl

theorem command_execute_of_faulted (op : Byte) {s : State} (h : s.engine = .faulted) :
    command (.execute op) s = (.result (.fault s.fault), s) := by
  rw [command, executeOpcode_of_faulted op h]
  rfl

theorem sameControl_refl (s : State) : SameControl s s := ⟨rfl, rfl, rfl, rfl⟩

/-- WriteMem changes memory at most (R117). -/
theorem sameControl_hostWriteMem (a : Nat) (b : Byte) (s : State) : SameControl s (hostWriteMem a b s).2 := by
  unfold hostWriteMem
  split
  · exact sameControl_setMem s _
  · exact sameControl_refl s

/-- ReadMem changes nothing (R117). -/
theorem hostReadMem_snd (a : Nat) (s : State) : (hostReadMem a s).2 = s := by
  unfold hostReadMem
  split <;> rfl

/-- In FAULTED every command but Construct keeps the parameters, the step state, the record and the latch. -/
theorem sameControl_command_of_faulted {c : Command} {s : State} (hc : keepsCore c = true)
    (h : s.engine = .faulted) : SameControl s (command c s).2 := by
  cases c with
  | construct m image => cases hc
  | step =>
    rw [command_step_of_faulted h]
    exact sameControl_refl s
  | execute op =>
    rw [command_execute_of_faulted op h]
    exact sameControl_refl s
  | readMem a =>
    rw [command, hostReadMem_snd]
    exact sameControl_refl s
  | writeReg r v => exact ⟨s.setReg_cfg r v, s.setReg_engine r v, s.setReg_fault r v, s.setReg_instrStart r v⟩
  | writeMem a b => exact sameControl_hostWriteMem a b s
  | readReg | readCounter | readStatus => exact sameControl_refl s

/-! ## The answer of a step or an execute -/

/-- What a step or an execute from `s` answers: from READY the next state, where it goes on or has faulted in
this step; from FAULTED the record held (R111, R113). -/
inductive AnswersFrom (s : State) : Host.Outcome State Fault Refusal → Prop where
  | goes {t : State} (hr : s.engine = .ready) (h : Goes (beginStep s) t) : AnswersFrom s (.next (t.setStart 0))
  | faults {t : State} (hr : s.engine = .ready) (h : Faults (beginStep s) t) :
    AnswersFrom s (.next (t.setStart 0))
  | held (hf : s.engine = .faulted) : AnswersFrom s (.fault (.engineFaulted s.fault))

/-- The end of a step from READY whose work answered a next state. -/
theorem answersFrom_endStep {s : State} (hr : s.engine = .ready) {r : Host.Outcome State Fault Refusal}
    (h : ∃ t, r = .next t ∧ (Goes (beginStep s) t ∨ Faults (beginStep s) t)) : AnswersFrom s (endStep r) := by
  obtain ⟨t, rfl, hgoes | hfaults⟩ := h
  · exact .goes hr hgoes
  · exact .faults hr hfaults

theorem step_answersFrom (s : State) : AnswersFrom s (step s) := by
  cases h : s.engine with
  | ready =>
    rw [step_of_ready h]
    exact answersFrom_endStep h (fetchAndExecute_sound _)
  | faulted =>
    rw [step_of_faulted h]
    exact .held h

theorem executeOpcode_answersFrom (op : Byte) (s : State) : AnswersFrom s (executeOpcode op s) := by
  cases h : s.engine with
  | ready =>
    rw [executeOpcode_of_ready op h]
    exact answersFrom_endStep h (executeBody_sound op _)
  | faulted =>
    rw [executeOpcode_of_faulted op h]
    exact .held h

/-! ## The reply to the host -/

theorem resultOf_next_of_ready {t : State} (h : t.engine = .ready) : resultOf (.next t) = .ok := by
  rw [resultOf, h]

theorem resultOf_next_of_faulted {t : State} (h : t.engine = .faulted) : resultOf (.next t) = .fault t.fault := by
  rw [resultOf, h]

section

variable {s : State} {r : Host.Outcome State Fault Refusal} (h : AnswersFrom s r)
include h

theorem AnswersFrom.resultOf_of_ready (ht : (stateAfter s r).engine = .ready) : resultOf r = .ok := by
  cases h with
  | goes | faults => exact resultOf_next_of_ready ht
  | held hf => cases hf.symm.trans ht

theorem AnswersFrom.resultOf_of_faulted (ht : (stateAfter s r).engine = .faulted) :
    resultOf r = .fault (stateAfter s r).fault := by
  cases h with
  | goes | faults => exact resultOf_next_of_faulted ht
  | held => rfl

/-- The record of a step that faults is a legal one, with the start of the step (R33, R223). -/
theorem AnswersFrom.record_of_ready (hr : s.engine = .ready) (ht : (stateAfter s r).engine = .faulted) :
    (stateAfter s r).fault.legal s.cfg.memSize ∧ (stateAfter s r).fault.instrAddr = s.reg .ip := by
  cases h with
  | goes _ hgoes => cases (hgoes.engine.trans hr).symm.trans ht
  | faults _ hfaults => exact ⟨hfaults.legal, hfaults.instrAddr⟩
  | held hf => cases hr.symm.trans hf

theorem AnswersFrom.stateAfter_of_faulted (hf : s.engine = .faulted) : stateAfter s r = s := by
  cases h with
  | goes hr | faults hr => cases hr.symm.trans hf
  | held => rfl

end

/-- The reply to a step or an execute, and the state it leaves, are those of what it answers. -/
theorem exists_answersFrom_of_command {c : Command} {op : Byte} (hc : c = .step ∨ c = .execute op) (s : State) :
    ∃ r, AnswersFrom s r ∧ command c s = (.result (resultOf r), stateAfter s r) := by
  rcases hc with rfl | rfl
  · exact ⟨_, step_answersFrom s, rfl⟩
  · exact ⟨_, executeOpcode_answersFrom op s, rfl⟩

/-! ## The obligations -/

/-- Settles O35: in FAULTED step and execute answer the record alone, and the other commands but Construct write
a register or a byte of memory at most. -/
theorem onlyConstructionLeavesFaulted : Obligations.OnlyConstructionLeavesFaulted := by
  intro s h
  refine ⟨step_of_faulted h, command_step_of_faulted h, fun op => command_execute_of_faulted op h,
    fun c hc => ?_⟩
  obtain ⟨-, hengine, hfault, -⟩ := sameControl_command_of_faulted hc h
  exact ⟨hengine.trans h, hfault⟩

/-- Settles O46, by the three things a step or an execute can answer. -/
theorem stepAndExecuteReplyOkOrTheRecord : Obligations.StepAndExecuteReplyOkOrTheRecord := by
  intro s op c hc
  have hstate : ∀ t, (c = .step → step s = .next t → (command c s).2 = t) ∧
      (c = .execute op → executeOpcode op s = .next t → (command c s).2 = t) := by
    refine fun t => ⟨?_, ?_⟩
    · rintro rfl h
      rw [command, h, stateAfter]
    · rintro rfl h
      rw [command, h, stateAfter]
  obtain ⟨r, hr, hreply⟩ := exists_answersFrom_of_command hc s
  rw [hreply] at hstate ⊢
  exact ⟨fun h => congrArg Reply.result (hr.resultOf_of_ready h),
    fun h => congrArg Reply.result (hr.resultOf_of_faulted h), hr.record_of_ready, hr.stateAfter_of_faulted,
    hstate⟩

end Sys2Proof.Machine
end

section
/-! The four MOV instructions (41_data_movement.md R130 to R133): the bytes that run as each, and its effect. -/

namespace Sys2Proof.Machine

open Sys2Proof.Claims

/-! ## Bytes that run as an operation -/

/-- The decoder reads an assigned opcode byte's operands by its operation's plan (R72, R79). -/
theorem decode_byteOf {m : OpcodeMap} (hm : m.wf) (o : Op) (bs : List Byte) :
    decode m (m.byteOf o :: bs) = (operandPlan o).onBytes (m.byteOf o) bs := by
  rw [decode, planFor_byteOf hm]

/-- An operation's byte and the operand bytes of an instruction run as that instruction, under every map. -/
theorem runsAs_of_onBytes {m : OpcodeMap} (o : Op) {bs : List Byte} {i : Instr}
    (h : (operandPlan o).onBytes (m.byteOf o) bs = .ok (i, [])) : RunsAs m (m.byteOf o :: bs) (layout i) i :=
  runsAs_of_decode fun hm => (decode_byteOf hm o bs).trans h

/-! ## A register write, in the terms of the statements -/

theorem regsKeptBut_setReg (s : State) (r : Reg) (v : Word) : RegsKeptBut [r] s (s.setReg r v) := by
  intro q hq
  rw [State.reg_setReg, if_neg (by simpa using hq)]

theorem memKept_setReg (s : State) (r : Reg) (v : Word) : MemKept s (s.setReg r v) := fun _ => rfl

theorem sameControl_setReg (s : State) (r : Reg) (v : Word) : SameControl s (s.setReg r v) :=
  ⟨s.setReg_cfg r v, s.setReg_engine r v, s.setReg_fault r v, s.setReg_instrStart r v⟩

/-- An instruction that only writes `v` into `dst` completes with `v` in `dst` and nothing else changed. -/
theorem completes_of_exec_eq_setReg {i : Instr} {s : State} {dst : Reg} {v : Word}
    (h : exec i s = .next (s.setReg dst v)) :
    ∃ t, exec i s = .next t ∧ t.reg dst = v ∧
      RegsKeptBut [dst] s t ∧ t.cnt = s.cnt ∧ MemKept s t ∧ SameControl s t :=
  ⟨_, h, by rw [State.reg_setReg, if_pos rfl], regsKeptBut_setReg s dst v, s.setReg_cnt dst v,
    memKept_setReg s dst v, sameControl_setReg s dst v⟩

/-! ## Effects -/

theorem exec_movLitReg (literal : Word) (dst : Reg) (s : State) :
    exec (.movLitReg literal dst) s = .next (s.setReg dst literal) := rfl

theorem exec_movRegReg (src dst : Reg) (s : State) :
    exec (.movRegReg src dst) s = .next (s.setReg dst (s.reg src)) := rfl

theorem exec_movRegMem (src : Reg) (a : Word) (s : State) :
    exec (.movRegMem src a) s = (write16 a (s.reg src) s).toOutcome := rfl

theorem exec_movMemReg (a : Word) (dst : Reg) (s : State) : exec (.movMemReg a dst) s =
    ((read16 .read a s).bind fun v t => .ok () (t.setReg dst v)).toOutcome := rfl

theorem exec_movRegMem_ok {s : State} {a : Word} (h : WordOk s a) (src : Reg) :
    exec (.movRegMem src a) s = .next (s.setMem (s.mem.writeWord a.toNat (s.reg src))) := by
  rw [exec_movRegMem, write16_ok h, Res.toOutcome_ok]

theorem exec_movRegMem_faultedFrom {s : State} {a : Word} (h : ¬ WordOk s a) (src : Reg) :
    ∃ t, exec (.movRegMem src a) s = .next t ∧ FaultedFrom s t 1 2 a 2 := by
  obtain ⟨t, hwrite, hfault⟩ := write16_faultedFrom (Nat.not_le.mp h) (s.reg src)
  exact ⟨t, by rw [exec_movRegMem, hwrite, Res.toOutcome_faulted], hfault⟩

theorem exec_movMemReg_ok {s : State} {a : Word} (h : WordOk s a) (dst : Reg) :
    exec (.movMemReg a dst) s = .next (s.setReg dst (wordAt s a)) := by
  rw [exec_movMemReg, read16_ok h, Res.bind_ok, Res.toOutcome_ok, Memory.readWord_eq, wordAt]

theorem exec_movMemReg_faultedFrom {s : State} {a : Word} (h : ¬ WordOk s a) (dst : Reg) :
    ∃ t, exec (.movMemReg a dst) s = .next t ∧ FaultedFrom s t 1 1 a 2 := by
  obtain ⟨t, hread, hfault⟩ := read16_faultedFrom (Nat.not_le.mp h) .read
  exact ⟨t, by rw [exec_movMemReg, hread, Res.bind_faulted, Res.toOutcome_faulted], hfault⟩

/-! ## The obligations -/

/-- Settles O18: the plan reads a word and a selector, and the effect is one register write. -/
theorem movLitRegMovesTheLiteral : Obligations.MovLitRegMovesTheLiteral := by
  refine ⟨fun m hi lo b => ?_, fun literal dst s => completes_of_exec_eq_setReg (exec_movLitReg literal dst s)⟩
  rw [← joinBytes_eq_ofNat]
  exact runsAs_of_onBytes (i := .movLitReg _ _) .movLitReg (by simp [operandPlan])

/-- Settles O19: the plan reads two selectors, and the effect is one register write. -/
theorem movRegRegCopiesTheRegister : Obligations.MovRegRegCopiesTheRegister := by
  refine ⟨fun m a b => ?_, fun src dst s => completes_of_exec_eq_setReg (exec_movRegReg src dst s)⟩
  exact runsAs_of_onBytes (i := .movRegReg _ _) .movRegReg (by simp [operandPlan])

/-- Settles O20: the plan reads a selector and a word, and the effect is one word store. -/
theorem movRegMemStoresTheRegister : Obligations.MovRegMemStoresTheRegister := by
  refine ⟨fun m b hi lo => ?bytes, fun src a s hw => ⟨fun ha => ?stored, (exec_movRegMem_faultedFrom · src)⟩⟩
  case bytes =>
    rw [← joinBytes_eq_ofNat]
    exact runsAs_of_onBytes (i := .movRegMem _ _) .movRegMem (by simp [operandPlan])
  case stored =>
    exact ⟨_, exec_movRegMem_ok ha src, holdsWord_writeWord hw ha _, memKeptOutside_writeWord s a _,
      regsKeptBut_setMem [] s _, s.setMem_cnt _, sameControl_setMem s _⟩

/-- Settles O21: the plan reads a word and a selector, and the effect is one word load into a register. -/
theorem movMemRegLoadsTheRegister : Obligations.MovMemRegLoadsTheRegister := by
  refine ⟨fun m hi lo b => ?bytes, fun a dst s => ⟨fun ha => ?loaded, (exec_movMemReg_faultedFrom · dst)⟩⟩
  case bytes =>
    rw [← joinBytes_eq_ofNat]
    exact runsAs_of_onBytes (i := .movMemReg _ _) .movMemReg (by simp [operandPlan])
  case loaded => exact completes_of_exec_eq_setReg (exec_movMemReg_ok ha dst)

end Sys2Proof.Machine
end

section
/-! The one arithmetic instruction (42_arithmetic.md R150): the bytes that run as it, its sum and its faults. -/

namespace Sys2Proof.Machine

open Sys2Proof.Claims

/-- A raw ordinal of 12 or more faults with the record of UnknownRegister, and nothing else changed (R150, R222). -/
theorem readOrdinal_faultedFrom {n : Byte} (h : 12 ≤ n.toNat) (s : State) :
    ∃ t, readOrdinal n s = .faulted t ∧ FaultedFrom s t 2 0 (BitVec.ofNat 16 n.toNat) 0 :=
  ⟨_, readOrdinal_fault h s, by rw [BitVec.ofNat_toNat]; rfl⟩

theorem toNat_addWrap (v w : Word) : (addWrap v w).toNat = (v.toNat + w.toNat) % 65536 :=
  BitVec.toNat_add v w

/-! ## Effects -/

theorem exec_addRegReg (n1 n2 : Byte) (s : State) : exec (.addRegReg n1 n2) s =
    ((readOrdinal n1 s).bind fun v1 t =>
      (readOrdinal n2 t).bind fun v2 u => .ok () (u.setReg .acc (addWrap v1 v2))).toOutcome := rfl

theorem exec_addRegReg_ok {n1 n2 : Byte} {q1 q2 : Reg} (h1 : n1.toNat = q1.ordinal) (h2 : n2.toNat = q2.ordinal)
    (s : State) : exec (.addRegReg n1 n2) s = .next (s.setReg .acc (addWrap (s.reg q1) (s.reg q2))) := by
  rw [exec_addRegReg, readOrdinal_ok q1 h1, Res.bind_ok, readOrdinal_ok q2 h2, Res.bind_ok, Res.toOutcome_ok]

theorem exec_addRegReg_first_faultedFrom {n1 : Byte} (h1 : 12 ≤ n1.toNat) (n2 : Byte) (s : State) :
    ∃ t, exec (.addRegReg n1 n2) s = .next t ∧ FaultedFrom s t 2 0 (BitVec.ofNat 16 n1.toNat) 0 := by
  obtain ⟨t, hread, hfault⟩ := readOrdinal_faultedFrom h1 s
  exact ⟨t, by rw [exec_addRegReg, hread, Res.bind_faulted, Res.toOutcome_faulted], hfault⟩

/-- The read of a good first ordinal leaves the state as it is, so the second one faults from there. -/
theorem exec_addRegReg_second_faultedFrom {n1 n2 : Byte} (h1 : n1.toNat < 12) (h2 : 12 ≤ n2.toNat) (s : State) :
    ∃ t, exec (.addRegReg n1 n2) s = .next t ∧ FaultedFrom s t 2 0 (BitVec.ofNat 16 n2.toNat) 0 := by
  obtain ⟨q1, -, hq1⟩ := Reg.ofOrdinal_of_lt h1
  obtain ⟨t, hread, hfault⟩ := readOrdinal_faultedFrom h2 s
  exact ⟨t, by rw [exec_addRegReg, readOrdinal_ok q1 hq1.symm, Res.bind_ok, hread, Res.bind_faulted,
    Res.toOutcome_faulted], hfault⟩

/-! ## The obligation -/

/-- Settles O22: the plan reads two raw ordinals; the effect is one register write, or the fault of the first
ordinal that names no register. -/
theorem addRegRegAddsModulo : Obligations.AddRegRegAddsModulo := by
  refine ⟨fun m n1 n2 => ?bytes, fun n1 n2 q1 q2 s h1 h2 => ?sum,
    fun _ n2 s h1 => exec_addRegReg_first_faultedFrom h1 n2 s,
    fun _ _ s h1 h2 => exec_addRegReg_second_faultedFrom h1 h2 s⟩
  case bytes => exact runsAs_of_onBytes (i := .addRegReg _ _) .addRegReg (by simp [operandPlan])
  case sum =>
    obtain ⟨t, hexec, hacc, hframe⟩ := completes_of_exec_eq_setReg (exec_addRegReg_ok h1 h2 s)
    exact ⟨t, hexec, by rw [hacc, toNat_addWrap], hframe⟩

end Sys2Proof.Machine
end

section
/-! The one branch (43_branch.md R160): the bytes that run as it, and its effect on `ip`. -/

namespace Sys2Proof.Machine

open Sys2Proof.Claims

theorem notEqual_iff (value acc : Word) : notEqual value acc ↔ value ≠ acc := bne_iff_ne

theorem exec_jmpNotEq (value address : Word) (s : State) : exec (.jmpNotEq value address) s =
    .next (if notEqual value (s.reg .acc) then s.setReg .ip address else s) := rfl

/-- Taken or not, the branch is one write of `ip`: falling through writes back the `ip` after the instruction. -/
theorem exec_jmpNotEq_eq_setReg (value address : Word) (s : State) : exec (.jmpNotEq value address) s =
    .next (s.setReg .ip (if value = s.reg .acc then s.reg .ip else address)) := by
  rw [exec_jmpNotEq]
  by_cases h : value = s.reg .acc
  · rw [if_neg fun hne => (notEqual_iff _ _).mp hne h, if_pos h, State.setReg_reg_self]
  · rw [if_pos ((notEqual_iff _ _).mpr h), if_neg h]

/-- Settles O23: the plan reads two words, and the effect is one write of `ip`, in which no memory is read, so
the target is not checked. -/
theorem jmpNotEqJumpsOnDifference : Obligations.JmpNotEqJumpsOnDifference := by
  refine ⟨fun m h1 l1 h2 l2 => ?bytes,
    fun value address s => completes_of_exec_eq_setReg (exec_jmpNotEq_eq_setReg value address s)⟩
  case bytes =>
    rw [← joinBytes_eq_ofNat, ← joinBytes_eq_ofNat]
    exact runsAs_of_onBytes (i := .jmpNotEq _ _) .jmpNotEq (by simp [operandPlan])

end Sys2Proof.Machine
end

section
/-! The stack instructions (44_stack.md R170 to R176): what a push and a pop leave, the bytes that run as
PSH_LIT, PSH_REG and POP, and their effects. -/

namespace Sys2Proof.Machine

open Sys2Proof.Claims

/-! ## Push and pop, in the terms of the statements -/

theorem sameControl_trans {s t u : State} (h : SameControl s t) (k : SameControl t u) : SameControl s u := by
  obtain ⟨hcfg, hengine, hfault, hstart⟩ := h
  obtain ⟨kcfg, kengine, kfault, kstart⟩ := k
  exact ⟨kcfg.trans hcfg, kengine.trans hengine, kfault.trans hfault, kstart.trans hstart⟩

/-- A register write adds its register to those that may have changed. -/
theorem regsKeptBut_cons_setReg {ds : List Reg} {s t : State} (h : RegsKeptBut ds s t) (r : Reg) (v : Word) :
    RegsKeptBut (r :: ds) s (t.setReg r v) := by
  intro q hq
  obtain ⟨hne, hds⟩ := not_or.mp (mt List.mem_cons.mpr hq)
  rw [State.reg_setReg, if_neg hne, h q hds]

theorem regsKeptBut_setCnt {ds : List Reg} {s t : State} (h : RegsKeptBut ds s t) (v : Word) :
    RegsKeptBut ds s (t.setCnt v) :=
  fun r hr => (t.reg_setCnt v r).trans (h r hr)

theorem sameControl_setCnt (s : State) (v : Word) : SameControl s (s.setCnt v) :=
  ⟨s.setCnt_cfg v, s.setCnt_engine v, s.setCnt_fault v, s.setCnt_instrStart v⟩

/-- `t` is what a push of `v` leaves: the word at the old `sp`, and nothing else but `sp` and `cnt` (R170). -/
def Pushes (v : Word) (s t : State) : Prop :=
  HoldsWord t (s.reg .sp) v ∧ MemKeptOutside (s.reg .sp) s t ∧
    t.reg .sp = s.reg .sp - 2 ∧ t.cnt = s.cnt + 2 ∧ RegsKeptBut [.sp] s t ∧ SameControl s t

theorem push_pushes {s : State} (hw : Memory.wf s.cfg.memSize s.mem) (hsp : WordOk s (s.reg .sp)) (v : Word) :
    ∃ t, push v s = .ok () t ∧ Pushes v s t :=
  ⟨_, push_ok hsp, holdsWord_writeWord hw hsp v, memKeptOutside_writeWord s _ v,
    by rw [State.reg_setCnt, State.reg_setReg, if_pos rfl], State.setCnt_cnt _ _,
    regsKeptBut_setCnt (regsKeptBut_cons_setReg (regsKeptBut_setMem [] s _) .sp _) _,
    sameControl_trans (sameControl_setMem s _)
      (sameControl_trans (sameControl_setReg _ .sp _) (sameControl_setCnt _ _))⟩

theorem push_faultedFrom {s : State} (hsp : ¬ WordOk s (s.reg .sp)) (v : Word) :
    ∃ t, push v s = .faulted t ∧ FaultedFrom s t 1 2 (s.reg .sp) 2 :=
  ⟨_, push_fault hsp, faultedFrom_invalidAddress s _ 2 .write⟩

/-- The state in which a pop reads its word: `sp` and `cnt` have moved already (R171). -/
def beforePopRead (s : State) : State := (s.setReg .sp (s.reg .sp + 2)).setCnt (s.cnt - 2)

theorem reg_sp_beforePopRead (s : State) : (beforePopRead s).reg .sp = s.reg .sp + 2 := by
  rw [beforePopRead, State.reg_setCnt, State.reg_setReg, if_pos rfl]

theorem cnt_beforePopRead (s : State) : (beforePopRead s).cnt = s.cnt - 2 := State.setCnt_cnt _ _

theorem memKept_beforePopRead (s : State) : MemKept s (beforePopRead s) := fun _ => rfl

theorem regsKeptBut_beforePopRead (s : State) : RegsKeptBut [.sp] s (beforePopRead s) :=
  regsKeptBut_setCnt (regsKeptBut_setReg s .sp _) _

theorem sameControl_beforePopRead (s : State) : SameControl s (beforePopRead s) :=
  sameControl_trans (sameControl_setReg s .sp _) (sameControl_setCnt _ _)

theorem pop_eq_wordAt {s : State} (h : WordOk s (s.reg .sp + 2)) :
    pop s = .ok (wordAt s (s.reg .sp + 2)) (beforePopRead s) :=
  pop_ok h

theorem pop_faultedFrom {s : State} (h : ¬ WordOk s (s.reg .sp + 2)) :
    ∃ t, pop s = .faulted t ∧ FaultedFrom (beforePopRead s) t 1 1 (s.reg .sp + 2) 2 :=
  ⟨_, pop_fault h, faultedFrom_invalidAddress (beforePopRead s) _ 2 .read⟩

theorem wordAt_of_holdsWord {s : State} {a v : Word} (h : HoldsWord s a v) : wordAt s a = v := by
  obtain ⟨hhi, hlo⟩ := h
  rw [wordAt, hhi, hlo, joinBytes_hi_lo]

/-! ## Effects -/

theorem exec_pshLit (value : Word) (s : State) : exec (.pshLit value) s = (push value s).toOutcome := rfl

theorem exec_pshReg (src : Reg) (s : State) : exec (.pshReg src) s = (push (s.reg src) s).toOutcome := rfl

theorem exec_pop (dst : Reg) (s : State) :
    exec (.pop dst) s = ((pop s).bind fun v t => .ok () (t.setReg dst v)).toOutcome := rfl

/-- An instruction that only pushes `v` stores it and moves `sp` and `cnt`, or faults with neither moved
(R170, R173, R174). -/
theorem completes_or_faults_of_exec_eq_push {i : Instr} {s : State} {v : Word}
    (h : exec i s = (push v s).toOutcome) (hw : Memory.wf s.cfg.memSize s.mem) :
    (WordOk s (s.reg .sp) → ∃ t, exec i s = .next t ∧ Pushes v s t) ∧
    (¬ WordOk s (s.reg .sp) → ∃ t, exec i s = .next t ∧ FaultedFrom s t 1 2 (s.reg .sp) 2) := by
  constructor
  · intro hsp
    obtain ⟨t, hpush, ht⟩ := push_pushes hw hsp v
    exact ⟨t, by rw [h, hpush, Res.toOutcome_ok], ht⟩
  · intro hsp
    obtain ⟨t, hpush, ht⟩ := push_faultedFrom hsp v
    exact ⟨t, by rw [h, hpush, Res.toOutcome_faulted], ht⟩

/-- The destination is written last, over the `sp` of the pop where it is `sp` itself (R175). -/
theorem exec_pop_ok {s : State} (h : WordOk s (s.reg .sp + 2)) (dst : Reg) :
    exec (.pop dst) s = .next ((beforePopRead s).setReg dst (wordAt s (s.reg .sp + 2))) := by
  rw [exec_pop, pop_eq_wordAt h, Res.bind_ok, Res.toOutcome_ok]

theorem exec_pop_faultedFrom {s : State} (h : ¬ WordOk s (s.reg .sp + 2)) (dst : Reg) :
    ∃ t, exec (.pop dst) s = .next t ∧ FaultedFrom (beforePopRead s) t 1 1 (s.reg .sp + 2) 2 := by
  obtain ⟨t, hpop, ht⟩ := pop_faultedFrom h
  exact ⟨t, by rw [exec_pop, hpop, Res.bind_faulted, Res.toOutcome_faulted], ht⟩

/-! ## The obligations -/

/-- Settles O24: the plan reads a word, and the effect is one push of it. -/
theorem pshLitPushesTheLiteral : Obligations.PshLitPushesTheLiteral := by
  refine ⟨fun m hi lo => ?bytes, fun value s => completes_or_faults_of_exec_eq_push (exec_pshLit value s)⟩
  case bytes =>
    rw [← joinBytes_eq_ofNat]
    exact runsAs_of_onBytes (i := .pshLit _) .pshLit (by simp [operandPlan])

/-- Settles O25: the plan reads a selector, and the effect is one push of the register, read before the push. -/
theorem pshRegPushesTheRegister : Obligations.PshRegPushesTheRegister := by
  refine ⟨fun m b => ?bytes, fun src s => completes_or_faults_of_exec_eq_push (exec_pshReg src s)⟩
  case bytes => exact runsAs_of_onBytes (i := .pshReg _) .pshReg (by simp [operandPlan])

/-- Settles O26: the plan reads a selector; the effect is a pop and then one register write, which a fault of
the pop leaves out. -/
theorem popReadsIntoTheRegister : Obligations.PopReadsIntoTheRegister := by
  refine ⟨fun m b => ?bytes, fun dst s => ⟨fun h => ?popped, (exec_pop_faultedFrom · dst)⟩⟩
  case bytes => exact runsAs_of_onBytes (i := .pop _) .pop (by simp [operandPlan])
  case popped =>
    exact ⟨_, exec_pop_ok h dst, by rw [State.reg_setReg, if_pos rfl],
      fun hdst => by rw [State.reg_setReg, if_neg hdst.symm, reg_sp_beforePopRead], cnt_beforePopRead s,
      regsKeptBut_cons_setReg (regsKeptBut_beforePopRead s) dst _, memKept_beforePopRead s,
      sameControl_trans (sameControl_beforePopRead s) (sameControl_setReg _ dst _)⟩

/-- Settles O30: the pop moves `sp` and `cnt` back, modulo 2^16, to where the push found them, so it reads the
word the push stored. -/
theorem popUndoesPush : Obligations.PopUndoesPush := by
  intro s v hw hsp
  obtain ⟨t, hpush, hholds, -, htsp, htcnt, -, hcfg, -⟩ := push_pushes hw hsp v
  have hback : t.reg .sp + 2 = s.reg .sp := by rw [htsp, BitVec.sub_add_cancel]
  have hok : WordOk t (t.reg .sp + 2) := by rwa [WordOk, hback, hcfg]
  refine ⟨t, beforePopRead t, hpush, ?word, ?sp, ?cnt, hholds⟩
  case word => rw [pop_eq_wordAt hok, hback, wordAt_of_holdsWord hholds]
  case sp => rw [reg_sp_beforePopRead, hback]
  case cnt => rw [cnt_beforePopRead, htcnt, BitVec.add_sub_cancel]

end Sys2Proof.Machine
end

section
/-! Calls and return (45_call_return.md R190 to R194): the bytes that run as CAL_LIT, CAL_REG and RET, the frame
that a call saves, and the frame that a return unwinds. -/

namespace Sys2Proof.Machine

open Sys2Proof.Claims

/-! ## Saving a frame -/

theorem frame_eq_frameWords (s : State) : frame s = frameWords s := rfl

theorem pushSlot_eq (s : State) (j : Nat) : pushSlot s j = s.reg .sp - twice j := rfl

/-- The state after the first `n` pushes of push_state, none of which faulted (R190). -/
def afterPushes (s : State) (n : Nat) : State := pushed s ((frame s).take n)

theorem length_take_frame (s : State) {n : Nat} (hn : n ≤ 10) : ((frame s).take n).length = n :=
  List.length_take_of_le hn

theorem reg_sp_afterPushes (s : State) {n : Nat} (hn : n ≤ 10) : (afterPushes s n).reg .sp = pushSlot s n := by
  rw [afterPushes, pushed, State.reg_setCnt, State.reg_setReg, if_pos rfl, length_take_frame s hn, pushSlot_eq]

theorem cnt_afterPushes (s : State) {n : Nat} (hn : n ≤ 10) : (afterPushes s n).cnt = s.cnt + twice n := by
  rw [afterPushes, pushed, State.setCnt_cnt, length_take_frame s hn]

theorem regsKeptBut_afterPushes (s : State) (n : Nat) : RegsKeptBut [.sp] s (afterPushes s n) :=
  regsKeptBut_setCnt (regsKeptBut_cons_setReg (regsKeptBut_setMem [] s _) .sp _) _

theorem sameControl_afterPushes (s : State) (n : Nat) : SameControl s (afterPushes s n) :=
  sameControl_trans (sameControl_setMem s _)
    (sameControl_trans (sameControl_setReg _ .sp _) (sameControl_setCnt _ _))

/-- Pushes in bounds leave their words, and no other byte changed (R190). -/
theorem framePushed_afterPushes {s : State} {n : Nat} (hw : Memory.wf s.cfg.memSize s.mem) (hn : n ≤ 10)
    (hok : ∀ k, k < n → WordOk s (pushSlot s k)) : FramePushed n s (afterPushes s n) := by
  have hlen := length_take_frame s hn
  constructor
  · intro j v hj hv
    refine pushedMem_at s.mem (s.reg .sp) _ hw (fun k hk => hok k (hlen ▸ hk)) (by omega) ?_
    rwa [List.getElem?_take_of_lt hj, frame_eq_frameWords]
  · intro b hb
    exact pushedMem_other s.mem (s.reg .sp) _ b fun k hk => hb k (hlen ▸ hk)

theorem pushState_ok {s : State} (hok : ∀ j, j < 10 → WordOk s (pushSlot s j)) :
    pushState s = .ok () (((afterPushes s 10).setReg .fp (pushSlot s 10)).setCnt 0) := by
  rw [pushState_eq, pushWords_ok (vs := frame s) hok, Res.bind_ok, ← reg_sp_afterPushes s (Nat.le_refl 10)]
  rfl

theorem pushState_fault {s : State} {j : Nat} (hj : j < 10) (hok : ∀ k, k < j → WordOk s (pushSlot s k))
    (hout : ¬ WordOk s (pushSlot s j)) :
    pushState s = .faulted ((afterPushes s j).takeFault (.invalidAddress (pushSlot s j) 2 .write)) := by
  rw [pushState_eq, pushWords_fault hj hok hout, Res.bind_faulted]
  rfl

/-! ## Calls -/

theorem exec_calLit (a : Word) (s : State) :
    exec (.calLit a) s = ((pushState s).bind fun _ t => .ok () (t.setReg .ip a)).toOutcome := rfl

theorem exec_calReg (src : Reg) (s : State) :
    exec (.calReg src) s = ((pushState s).bind fun _ t => .ok () (t.setReg .ip (s.reg src))).toOutcome := rfl

/-- What a frame has pushed is a matter of memory alone. -/
theorem framePushed_of_mem_eq {s t u : State} {n : Nat} (hmem : u.mem = t.mem) (h : FramePushed n s t) :
    FramePushed n s u := by
  obtain ⟨hwords, hrest⟩ := h
  constructor
  · intro j v hj hv
    rw [HoldsWord, hmem]
    exact hwords j v hj hv
  · rwa [hmem]

theorem regsKeptBut_of_subset {ds es : List Reg} {s t : State} (hsub : ds ⊆ es) (h : RegsKeptBut ds s t) :
    RegsKeptBut es s t :=
  fun r hr => h r fun hm => hr (hsub hm)

/-- With a saved frame, the new base and the jump are all that a call still does (R190, R192). -/
theorem callEntered_afterPushes {s : State} (hw : Memory.wf s.cfg.memSize s.mem)
    (hok : ∀ j, j < 10 → WordOk s (pushSlot s j)) (target : Word) :
    CallEntered target s ((((afterPushes s 10).setReg .fp (pushSlot s 10)).setCnt 0).setReg .ip target) := by
  refine ⟨?ip, ?sp, ?fp, rfl, ?regs, ?frame, ?control⟩
  case ip => simp
  case sp =>
    rw [State.reg_setReg, if_neg (by decide), State.reg_setCnt, State.reg_setReg, if_neg (by decide),
      reg_sp_afterPushes s (Nat.le_refl 10)]
  case fp => simp
  case regs =>
    exact regsKeptBut_of_subset (by decide) (regsKeptBut_cons_setReg
      (regsKeptBut_setCnt (regsKeptBut_cons_setReg (regsKeptBut_afterPushes s 10) .fp _) _) .ip _)
  case frame =>
    have hmem : ((((afterPushes s 10).setReg .fp (pushSlot s 10)).setCnt 0).setReg .ip target).mem =
        (afterPushes s 10).mem := by
      rw [State.setReg_mem, State.setCnt_mem, State.setReg_mem]
    exact framePushed_of_mem_eq hmem (framePushed_afterPushes hw (Nat.le_refl 10) hok)
  case control =>
    exact sameControl_trans (sameControl_afterPushes s 10) (sameControl_trans (sameControl_setReg _ .fp _)
      (sameControl_trans (sameControl_setCnt _ _) (sameControl_setReg _ .ip _)))

/-- An instruction that saves the frame and then writes `ip` is a call; its target is of the state before. -/
theorem callsTo_of_exec_eq_pushState {i : Instr} {target : State → Word}
    (h : ∀ s, exec i s = ((pushState s).bind fun _ t => .ok () (t.setReg .ip (target s))).toOutcome) :
    CallsTo i target := by
  intro s hw
  constructor
  · intro hok
    exact ⟨_, by rw [h, pushState_ok hok, Res.bind_ok, Res.toOutcome_ok], callEntered_afterPushes hw hok _⟩
  · intro j hj hok hout
    have hle : j ≤ 10 := Nat.le_of_lt hj
    exact ⟨_, by rw [h, pushState_fault hj hok hout, Res.bind_faulted, Res.toOutcome_faulted], afterPushes s j,
      reg_sp_afterPushes s hle, cnt_afterPushes s hle, regsKeptBut_afterPushes s j,
      framePushed_afterPushes hw hle hok, sameControl_afterPushes s j, faultedFrom_invalidAddress _ _ 2 .write⟩

/-! ## Unwinding a frame -/

theorem twice_add (m n : Nat) : twice (m + n) = twice m + twice n := by
  rw [twice, Nat.mul_add, BitVec.ofNat_add, twice, twice]

theorem popSlot_add (s : State) (j k : Nat) : popSlot s (j + k) = popSlot s j + twice k := by
  rw [popSlot, popSlot, BitVec.add_assoc, ← twice, ← twice, twice_add]

/-- A RET of `s` has come to `u`: `sp` is at the `j`-th pop, `cnt` has counted the pops down from `c`, and the
registers of the pops before the `n`-th hold their words (R191). -/
structure Unwound (s : State) (c : Word) (n j : Nat) (u : State) : Prop where
  regs : ∀ p r, restoreOrder[p]? = some r →
    u.reg r = if p + 2 < n then wordAt s (popSlot s (p + 2)) else s.reg r
  sp : u.reg .sp = popSlot s j
  fp : u.reg .fp = s.reg .fp
  acc : u.reg .acc = s.reg .acc
  cnt : u.cnt = c - twice j
  mem : u.mem = s.mem
  control : SameControl s u

/-- The pops of a RET start at `fp`. -/
def atFrameBase (s : State) : State := s.setReg .sp (s.reg .fp)

theorem ne_sp_of_restoreOrder_getElem? {p : Nat} {r : Reg} (h : restoreOrder[p]? = some r) : r ≠ .sp := by
  have hsp : Reg.sp ∉ restoreOrder := by decide
  exact fun e => hsp (e ▸ List.mem_of_getElem? h)

theorem lt_of_restoreOrder_getElem? {p : Nat} {r : Reg} (h : restoreOrder[p]? = some r) : p < 9 :=
  (List.getElem?_eq_some_iff.mp h).1

/-- An item of a list without repetition is not among the items before it. -/
theorem not_mem_take_of_getElem? {α : Type} {items : List α} (hn : items.Nodup) {p k : Nat} {x : α}
    (hp : items[p]? = some x) (hk : k ≤ p) : x ∉ items.take k := by
  intro hm
  obtain ⟨q, hq⟩ := List.mem_iff_getElem?.mp hm
  rw [List.getElem?_take, Option.ite_none_right_eq_some] at hq
  obtain ⟨hqk, hq⟩ := hq
  obtain ⟨hlt, -⟩ := List.getElem?_eq_some_iff.mp hp
  have hpq : p = q := (List.getElem?_inj hlt hn).mp (hp.trans hq.symm)
  omega

theorem unwound_atFrameBase (s : State) {n : Nat} (hn : n ≤ 2) : Unwound s s.cnt n 0 (atFrameBase s) where
  regs p r hp := by
    rw [atFrameBase, State.reg_setReg, if_neg (ne_sp_of_restoreOrder_getElem? hp), if_neg (by omega)]
  sp := by simp [atFrameBase, popSlot]
  fp := by simp [atFrameBase]
  acc := by simp [atFrameBase]
  cnt := by simp [atFrameBase]
  mem := rfl
  control := sameControl_setReg s .sp _

namespace Unwound

variable {s u : State} {c : Word} {n j : Nat}

theorem wordAt_eq (h : Unwound s c n j u) (a : Word) : wordAt u a = wordAt s a := by
  rw [wordAt, h.mem, wordAt]

theorem popSlot_eq (h : Unwound s c n j u) (k : Nat) : popSlot s (j + k) = u.reg .sp + twice k := by
  rw [popSlot_add, h.sp]

/-- The pops from here on are in bounds where those of the whole RET are. -/
theorem inBounds_iff (h : Unwound s c n j u) (k : Nat) :
    u.inBounds (u.reg .sp + twice k) 2 ↔ WordOk s (popSlot s (j + k)) := by
  obtain ⟨hcfg, -⟩ := h.control
  rw [State.inBounds, hcfg, h.popSlot_eq]

/-- Pops whose words go to no register. -/
theorem popped (h : Unwound s c n j u) (k : Nat) : Unwound s c n (j + k) (Machine.popped u k) where
  regs p r hp := by
    rw [Machine.popped, State.reg_setCnt, State.reg_setReg, if_neg (ne_sp_of_restoreOrder_getElem? hp),
      h.regs p r hp]
  sp := by simp [Machine.popped, h.sp, popSlot_add]
  fp := by simp [Machine.popped, h.fp]
  acc := by simp [Machine.popped, h.acc]
  cnt := by rw [Machine.popped, State.setCnt_cnt, h.cnt, twice_add, BitVec.sub_sub]
  mem := h.mem
  control := sameControl_trans h.control (sameControl_trans (sameControl_setReg u .sp _) (sameControl_setCnt _ _))

/-- A counter loaded after the first pop counts on from the word loaded. -/
theorem setCnt (h : Unwound s c n 1 u) (w : Word) : Unwound s (w + 2) n 1 (u.setCnt w) where
  regs := h.regs
  sp := h.sp
  fp := h.fp
  acc := h.acc
  cnt := (BitVec.add_sub_cancel w 2).symm
  mem := h.mem
  control := sameControl_trans h.control (sameControl_setCnt u w)

/-- Pops into the first `k` registers. -/
theorem restored (h : Unwound s c 2 1 u) {k : Nat} (hk : k ≤ 9) :
    Unwound s c (k + 2) (k + 1) (Machine.restored (restoredRegs.take k) u) := by
  have hout : ∀ r, r ∉ restoredRegs → r ∉ restoredRegs.take k := fun r hr hm => hr (List.mem_of_mem_take hm)
  have hlen : (restoredRegs.take k).length = k := List.length_take_of_le hk
  have hnodup : restoredRegs.Nodup := by decide
  obtain ⟨hsp, hcnt, hmem, hcfg, hengine, hfault, hstart, hkept, hrestored⟩ :=
    restored_spec (restoredRegs.take k) u (hout _ (by decide)) (hnodup.sublist (List.take_sublist _ _))
  rw [hlen] at hsp hcnt
  refine ⟨fun p r hp => ?regs, ?sp, ?fp, ?acc, ?cnt, hmem.trans h.mem,
    sameControl_trans h.control ⟨hcfg, hengine, hfault, hstart⟩⟩
  case regs =>
    by_cases hpk : p < k
    · rw [hrestored p r (by rwa [List.getElem?_take_of_lt hpk]), if_pos (by omega), h.sp, ← popSlot_add,
        h.mem, show 1 + (p + 1) = p + 2 by omega]
      rfl
    · have hnot : r ∉ restoredRegs.take k := not_mem_take_of_getElem? hnodup hp (Nat.le_of_not_lt hpk)
      rw [hkept r hnot (ne_sp_of_restoreOrder_getElem? hp), h.regs p r hp, if_neg (by omega), if_neg (by omega)]
  case sp => rw [hsp, h.sp, Nat.add_comm k 1, popSlot_add]
  case fp => rw [hkept .fp (hout _ (by decide)) (by decide), h.fp]
  case acc => rw [hkept .acc (hout _ (by decide)) (by decide), h.acc]
  case cnt => rw [hcnt, h.cnt, Nat.add_comm k 1, twice_add, BitVec.sub_sub]

/-- Past the last register there is no more to restore. -/
theorem of_le (h : Unwound s c 11 j u) (hn : 11 ≤ n) : Unwound s c n j u :=
  { h with
    regs := fun p r hp => by
      have hp9 := lt_of_restoreOrder_getElem? hp
      rw [h.regs p r hp, if_pos (by omega), if_pos (by omega)] }

/-! What the operations of a RET answer there. -/

theorem pop_ok (h : Unwound s c n j u) (hok : WordOk s (popSlot s (j + 1))) :
    pop u = .ok (wordAt s (popSlot s (j + 1))) (Machine.popped u 1) := by
  rw [pop_eq_wordAt ((h.inBounds_iff 1).mpr hok), h.wordAt_eq, h.popSlot_eq]
  rfl

theorem pop_fault (h : Unwound s c n j u) (hout : ¬ WordOk s (popSlot s (j + 1))) :
    pop u = .faulted ((Machine.popped u 1).takeFault (.invalidAddress (popSlot s (j + 1)) 2 .read)) := by
  rw [Machine.pop_fault (mt (h.inBounds_iff 1).mp hout), h.popSlot_eq]
  rfl

theorem popRegs_ok (h : Unwound s c 2 1 u) (hok : ∀ i, 1 ≤ i → i < 11 → WordOk s (popSlot s i)) :
    popRegs restoredRegs u = .ok () (Machine.restored restoredRegs u) :=
  Machine.popRegs_ok (by decide) fun k _ (hk : k ≤ 9) => (h.inBounds_iff k).mpr (hok (1 + k) (by omega) (by omega))

theorem popRegs_fault (h : Unwound s c 2 1 u) {k : Nat} (hk : k < 9)
    (hok : ∀ i, 1 ≤ i → i < k + 2 → WordOk s (popSlot s i)) (hout : ¬ WordOk s (popSlot s (k + 2))) :
    popRegs restoredRegs u = .faulted ((Machine.popped (Machine.restored (restoredRegs.take k) u) 1).takeFault
      (.invalidAddress (popSlot s (k + 2)) 2 .read)) := by
  have hslot : 1 + (k + 1) = k + 2 := by omega
  rw [Machine.popRegs_fault (rs := restoredRegs) (j := k) (by decide) hk
    (fun i _ hi => (h.inBounds_iff i).mpr (hok (1 + i) (by omega) (by omega)))
    (by rwa [h.inBounds_iff, hslot]), ← h.popSlot_eq, hslot]

theorem dropWords_ok (h : Unwound s c n j u) {m : Nat}
    (hok : ∀ k, 1 ≤ k → k ≤ m → WordOk s (popSlot s (j + k))) :
    dropWords m u = .ok () (Machine.popped u m) :=
  Machine.dropWords_ok fun k h1 hk => (h.inBounds_iff k).mpr (hok k h1 hk)

theorem dropWords_fault (h : Unwound s c n j u) {m k : Nat} (h1 : 1 ≤ k) (hk : k ≤ m)
    (hok : ∀ i, 1 ≤ i → i < k → WordOk s (popSlot s (j + i))) (hout : ¬ WordOk s (popSlot s (j + k))) :
    dropWords m u = .faulted ((Machine.popped u k).takeFault (.invalidAddress (popSlot s (j + k)) 2 .read)) := by
  rw [Machine.dropWords_fault h1 hk (fun i hi hik => (h.inBounds_iff i).mpr (hok i hi hik))
    (mt (h.inBounds_iff k).mp hout), h.popSlot_eq]

end Unwound

/-- The state after the frame-size word has been popped into `cnt`. -/
def sizePopped (s : State) : State := (popped (atFrameBase s) 1).setCnt (wordAt s (popSlot s 1))

theorem unwound_sizePopped (s : State) : Unwound s (wordAt s (popSlot s 1) + 2) 2 1 (sizePopped s) :=
  ((unwound_atFrameBase s (Nat.le_refl 2)).popped 1).setCnt _

/-- The state after all nine registers have been restored. -/
def regsPopped (s : State) : State := restored restoredRegs (sizePopped s)

theorem unwound_regsPopped (s : State) : Unwound s (wordAt s (popSlot s 1) + 2) 11 10 (regsPopped s) :=
  (unwound_sizePopped s).restored (k := 9) (Nat.le_refl 9)

/-- The word count and the words it counts are dropped alike, since the count goes to no register. -/
theorem pop_bind_dropWords (u : State) (k : Unit → State → Res Unit) :
    ((pop u).bind fun n v => (dropWords n.toNat v).bind k) =
      (dropWords ((wordAt u (u.reg .sp + 2)).toNat + 1) u).bind k := by
  rw [dropWords]
  by_cases h : WordOk u (u.reg .sp + 2)
  · rw [pop_eq_wordAt h, Res.bind_ok, Res.bind_ok]
  · rw [pop_fault h, Res.bind_faulted, Res.bind_faulted, Res.bind_faulted]

/-- A RET once its frame-size word is popped: the registers, then words dropped up to the last pop (R191). -/
theorem popState_eq {s : State} (h : WordOk s (popSlot s 1)) :
    popState s = (popRegs restoredRegs (sizePopped s)).bind fun _ u =>
      (dropWords ((wordAt u (u.reg .sp + 2)).toNat + 1) u).bind fun _ x =>
        .ok () (x.setReg .fp (s.reg .fp + wordAt s (popSlot s 1))) := by
  have hpop := (unwound_atFrameBase s (Nat.zero_le 2)).pop_ok h
  rw [atFrameBase] at hpop
  rw [popState, hpop, Res.bind_ok]
  simp only [pop_bind_dropWords]
  rfl

theorem wordAt_regsPopped (s : State) :
    (wordAt (regsPopped s) ((regsPopped s).reg .sp + 2)).toNat + 1 = popCount s - 10 := by
  have h := unwound_regsPopped s
  rw [h.wordAt_eq, h.sp, popCount, show popSlot s 10 + 2 = popSlot s 11 from (popSlot_add s 10 1).symm]
  omega

/-- A RET once its registers are restored. -/
theorem popState_eq_dropWords {s : State} (hok : ∀ j, 1 ≤ j → j < 11 → WordOk s (popSlot s j)) :
    popState s = (dropWords (popCount s - 10) (regsPopped s)).bind fun _ x =>
      .ok () (x.setReg .fp (s.reg .fp + wordAt s (popSlot s 1))) := by
  rw [popState_eq (hok 1 (by omega) (by omega)), (unwound_sizePopped s).popRegs_ok hok, Res.bind_ok, ← regsPopped,
    wordAt_regsPopped]

/-! ## The return -/

theorem exec_ret (s : State) : exec .ret s = (popState s).toOutcome := rfl

/-- A RET of `s` faults in its `j`-th pop, with the registers of the pops before it restored and the counter
counted down from `c`. -/
def RetStopsAt (s : State) (c : Word) (j : Nat) : Prop :=
  ∃ u, Unwound s c j j u ∧ popState s = .faulted (u.takeFault (.invalidAddress (popSlot s j) 2 .read))

theorem retStopsAt_one {s : State} (hout : ¬ WordOk s (popSlot s 1)) : RetStopsAt s s.cnt 1 := by
  have h := unwound_atFrameBase s (n := 1) (by omega)
  have hpop := h.pop_fault hout
  rw [atFrameBase] at hpop
  exact ⟨_, h.popped 1, by rw [popState, hpop, Res.bind_faulted]; rfl⟩

section

variable {s : State} {j : Nat} (hok : ∀ k, 1 ≤ k → k < j → WordOk s (popSlot s k))
  (hout : ¬ WordOk s (popSlot s j))

include hok hout

theorem retStopsAt_of_lt_eleven (h2 : 2 ≤ j) (hj : j < 11) : RetStopsAt s (wordAt s (popSlot s 1) + 2) j := by
  obtain ⟨k, rfl⟩ := Nat.exists_eq_add_of_le' h2
  have h := unwound_sizePopped s
  refine ⟨_, (h.restored (k := k) (by omega)).popped 1, ?_⟩
  rw [popState_eq (hok 1 (by omega) (by omega)), h.popRegs_fault (by omega) hok hout, Res.bind_faulted]

theorem retStopsAt_of_eleven_le (hj : 11 ≤ j) (hle : j ≤ popCount s) :
    RetStopsAt s (wordAt s (popSlot s 1) + 2) j := by
  obtain ⟨k, rfl⟩ := Nat.exists_eq_add_of_le (show 10 ≤ j by omega)
  have h := unwound_regsPopped s
  refine ⟨_, (h.popped k).of_le hj, ?_⟩
  rw [popState_eq_dropWords fun i h1 hi => hok i h1 (by omega),
    h.dropWords_fault (k := k) (by omega) (by omega) (fun i _ hi => hok _ (by omega) (by omega)) hout,
    Res.bind_faulted]

end

/-- The frame-size word is loaded by the first pop, so only the pops after it count down from it. -/
theorem add_two_sub_twice (w : Word) {j : Nat} (hj : 1 ≤ j) : w + 2 - twice j = w - twice (j - 1) := by
  obtain ⟨k, rfl⟩ := Nat.exists_eq_add_of_le' hj
  rw [Nat.add_sub_cancel, twice_succ', ← BitVec.sub_sub, BitVec.add_sub_cancel]

/-- A first pop out of bounds stops the RET, the counter loaded unless it is the very first pop. -/
theorem retStopsAt {s : State} {j : Nat} (h1 : 1 ≤ j) (hle : j ≤ popCount s)
    (hok : ∀ k, 1 ≤ k → k < j → WordOk s (popSlot s k)) (hout : ¬ WordOk s (popSlot s j)) :
    RetStopsAt s (if j = 1 then s.cnt else wordAt s (popSlot s 1) + 2) j := by
  by_cases hj1 : j = 1
  · subst hj1
    exact retStopsAt_one hout
  · rw [if_neg hj1]
    by_cases hj : j < 11
    · exact retStopsAt_of_lt_eleven hok hout (by omega) hj
    · exact retStopsAt_of_eleven_le hok hout (by omega) hle

/-- With every pop in bounds the RET unwinds the whole frame, and writes `fp` last. -/
theorem popState_completes {s : State} (hok : ∀ j, 1 ≤ j → j ≤ popCount s → WordOk s (popSlot s j)) :
    ∃ u, Unwound s (wordAt s (popSlot s 1) + 2) 11 (popCount s) u ∧
      popState s = .ok () (u.setReg .fp (s.reg .fp + wordAt s (popSlot s 1))) := by
  have hcount : 10 + (popCount s - 10) = popCount s := by
    rw [popCount]
    omega
  have h := unwound_regsPopped s
  refine ⟨_, hcount ▸ h.popped (popCount s - 10), ?_⟩
  rw [popState_eq_dropWords fun j h1 hj => hok j h1 (by omega),
    h.dropWords_ok fun k _ hk => hok (10 + k) (by omega) (by omega), Res.bind_ok]

/-! ## The obligations -/

/-- Settles O27: the plan reads a word; the effect is push_state and the jump. -/
theorem calLitSavesTheFrameAndJumps : Obligations.CalLitSavesTheFrameAndJumps := by
  refine ⟨fun m hi lo => ?bytes, fun a => callsTo_of_exec_eq_pushState (exec_calLit a)⟩
  case bytes =>
    rw [← joinBytes_eq_ofNat]
    exact runsAs_of_onBytes (i := .calLit _) .calLit (by simp [operandPlan])

/-- Settles O28: the plan reads a selector; the effect is push_state and the jump, to the register as it was
before the pushes. -/
theorem calRegSavesTheFrameAndJumps : Obligations.CalRegSavesTheFrameAndJumps := by
  refine ⟨fun m b => ?bytes, fun src => callsTo_of_exec_eq_pushState (exec_calReg src)⟩
  case bytes => exact runsAs_of_onBytes (i := .calReg _) .calReg (by simp [operandPlan])

/-- Settles O29: the plan reads nothing; the pops unwind the frame as far as they are in bounds. -/
theorem retUnwindsTheFrame : Obligations.RetUnwindsTheFrame := by
  refine ⟨fun m => ?bytes, fun s => ⟨fun hok => ?completes, fun j h1 hle hok hout => ?faults⟩⟩
  case bytes => exact runsAs_of_onBytes (i := .ret) .ret (by simp [operandPlan])
  case completes =>
    obtain ⟨u, hu, hpop⟩ := popState_completes hok
    have hcount : 1 ≤ popCount s := Nat.le_add_right_of_le (by decide)
    refine ⟨u.setReg .fp (s.reg .fp + wordAt s (popSlot s 1)),
      by rw [exec_ret, hpop, Res.toOutcome_ok], fun p r hp => ?regs, ?sp, ?base, ?cnt, ?acc,
      fun b => congrArg (·.read b) hu.mem, sameControl_trans hu.control (sameControl_setReg u .fp _)⟩
    case regs =>
      have hfp : Reg.fp ∉ restoreOrder := by decide
      have hp9 := lt_of_restoreOrder_getElem? hp
      have hne : r ≠ .fp := fun e => hfp (e ▸ List.mem_of_getElem? hp)
      rw [State.reg_setReg, if_neg hne, hu.regs p r hp, if_pos (by omega)]
    case sp => rw [State.reg_setReg, if_neg (by decide), hu.sp]
    case base => rw [State.reg_setReg, if_pos rfl]
    case cnt => exact hu.cnt.trans (add_two_sub_twice _ hcount)
    case acc => rw [State.reg_setReg, if_neg (by decide), hu.acc]
  case faults =>
    obtain ⟨u, hu, hpop⟩ := retStopsAt h1 hle hok hout
    refine ⟨u, _, by rw [exec_ret, hpop, Res.toOutcome_faulted], hu.regs, hu.sp, hu.fp, hu.acc, ?cnt,
      fun b => congrArg (·.read b) hu.mem, hu.control, faultedFrom_invalidAddress u _ 2 .read⟩
    case cnt =>
      rw [hu.cnt]
      by_cases hj1 : j = 1
      · rw [if_pos hj1, if_pos hj1, hj1]
        rfl
      · rw [if_neg hj1, if_neg hj1, add_two_sub_twice _ h1, twice]

end Sys2Proof.Machine
end

section
/-! The fault record over a step, an execute and the commands in FAULTED (60_exceptions.md R223). -/

namespace Sys2Proof.Machine

open Sys2Proof.Claims

/-- A step or an execute that ends in READY leaves the record as it was. -/
theorem AnswersFrom.fault_of_ready {s : State} {r : Host.Outcome State Fault Refusal} (h : AnswersFrom s r)
    (ht : (stateAfter s r).engine = .ready) : (stateAfter s r).fault = s.fault := by
  cases h with
  | goes _ hgoes => exact hgoes.fault
  | faults _ hfaults => cases hfaults.engine.symm.trans ht
  | held => rfl

theorem answersFrom_next_of_step_or_execute {s t : State} {op : Byte}
    (h : step s = .next t ∨ executeOpcode op s = .next t) : AnswersFrom s (.next t) := by
  rcases h with h | h
  · exact h ▸ step_answersFrom s
  · exact h ▸ executeOpcode_answersFrom op s

/-- Settles O36: a fault of this step fills in the record, with the start of the step; a step that goes on keeps
it, and so does every command but Construct in FAULTED. -/
theorem faultRecordIsWrittenOnce : Obligations.FaultRecordIsWrittenOnce := by
  refine ⟨fun s t op hr h => ?step, fun s c hf hc => ?command⟩
  case step =>
    have hanswers : AnswersFrom s (.next t) := answersFrom_next_of_step_or_execute h
    exact ⟨hanswers.record_of_ready hr, hanswers.fault_of_ready⟩
  case command =>
    obtain ⟨-, -, hfault, -⟩ := sameControl_command_of_faulted hc hf
    exact hfault

end Sys2Proof.Machine
end

section
/-! Construction from an opcode map and an image (70_reset_and_hazards.md R251, R252). -/

namespace Sys2Proof.Machine

open Sys2Proof.Claims

theorem construct_refused_of_length {image : List Byte} (h : image.length < 2 ∨ 65536 < image.length)
    (m : OpcodeMap) : construct m image = .refused (.imageSize image.length) := by
  rw [construct, if_pos h]

theorem construct_of_wf {m : OpcodeMap} {image : List Byte} (hm : m.wf) (h2 : 2 ≤ image.length)
    (hmax : image.length ≤ 65536) :
    construct m image = .next
      (State.initial { memSize := image.length, opcodeMap := m } (Memory.ofBytes 0 image)) := by
  rw [construct, if_neg (by omega), if_pos hm]

theorem State.reg_initial_of_ne (cfg : Config) (mem : Memory) {r : Reg} (hsp : r ≠ .sp) (hfp : r ≠ .fp) :
    (State.initial cfg mem).reg r = 0 := by
  cases r with
  | sp => exact absurd rfl hsp
  | fp => exact absurd rfl hfp
  | _ => rfl

@[simp] theorem State.reg_sp_initial (cfg : Config) (mem : Memory) :
    (State.initial cfg mem).reg .sp = BitVec.ofNat 16 (cfg.memSize - 2) := rfl

@[simp] theorem State.reg_fp_initial (cfg : Config) (mem : Memory) :
    (State.initial cfg mem).reg .fp = BitVec.ofNat 16 (cfg.memSize - 2) := rfl

/-- The last word of a legal memory has a 16-bit address. -/
theorem toNat_ofNat_size_sub_two {size : Nat} (hmax : size ≤ 65536) :
    (BitVec.ofNat 16 (size - 2)).toNat = size - 2 := by
  rw [BitVec.toNat_ofNat, Nat.mod_eq_of_lt (by omega)]

theorem invariant_initial {cfg : Config} {mem : Memory} (hcfg : cfg.wf) (hmem : Memory.wf cfg.memSize mem) :
    Invariant (State.initial cfg mem) :=
  ⟨hcfg, hmem, fun _ => rfl, fun hfaulted => (nomatch hfaulted), rfl⟩

/-- Settles O38: the length alone decides between the refusal and the initial state, whose memory lists the
image's nonzero bytes. -/
theorem constructionGivesTheStatedState : Obligations.ConstructionGivesTheStatedState := by
  refine fun m image hm => ⟨fun hlen => construct_refused_of_length hlen m, fun h2 hmax =>
    ⟨_, construct_of_wf hm h2 hmax, rfl, rfl, fun _ => State.reg_initial_of_ne _ _, ?sp, ?fp, rfl, ?image, rfl, rfl,
      invariant_initial ⟨h2, hmax, hm⟩ (Memory.ofBytes_wf image)⟩⟩
  case sp => rw [State.reg_sp_initial, toNat_ofNat_size_sub_two hmax]
  case fp => rw [State.reg_fp_initial, toNat_ofNat_size_sub_two hmax]
  case image =>
    intro a ha
    have hread := Memory.read_ofBytes 0 image ha
    rwa [Nat.zero_add] at hread

end Sys2Proof.Machine
end

section
/-! The encoder and the decoder (30_encoding.md R72, R79 to R81): every encoding decodes to its instruction, and
how much of a list of bytes the decoder reads. -/

namespace Sys2Proof

open Sys2Proof.Machine Sys2Proof.Claims

theorem Config.opcodeMap_wf {c : Config} (h : c.wf) : c.opcodeMap.wf := by
  obtain ⟨-, -, hm⟩ := h
  exact hm

/-- An encoding is an operation's byte and operand bytes, so it decodes by the operation's plan. -/
theorem decode_encode_of_onBytes {m : OpcodeMap} (hm : m.wf) (o : Op) {i : Instr} {bs rest : List Byte}
    (hencode : encode m i = m.byteOf o :: bs)
    (hplan : (operandPlan o).onBytes (m.byteOf o) (bs ++ rest) = .ok (i, rest)) :
    decode m (encode m i ++ rest) = .ok (i, rest) := by
  rw [hencode, List.cons_append, decode_byteOf hm, hplan]

/-- Settles O1: each operation's plan reads back the operand bytes that its encoding lays out, a word from its two
bytes and a register from its canonical selector. -/
theorem decodeOfEncodeGivesTheInstruction : Obligations.DecodeOfEncodeGivesTheInstruction := by
  intro m i rest hm hi
  cases i with
  | movLitReg => exact decode_encode_of_onBytes hm .movLitReg rfl (by simp [operandPlan])
  | movRegReg => exact decode_encode_of_onBytes hm .movRegReg rfl (by simp [operandPlan])
  | movRegMem => exact decode_encode_of_onBytes hm .movRegMem rfl (by simp [operandPlan])
  | movMemReg => exact decode_encode_of_onBytes hm .movMemReg rfl (by simp [operandPlan])
  | addRegReg => exact decode_encode_of_onBytes hm .addRegReg rfl (by simp [operandPlan])
  | jmpNotEq => exact decode_encode_of_onBytes hm .jmpNotEq rfl (by simp [operandPlan])
  | pshLit => exact decode_encode_of_onBytes hm .pshLit rfl (by simp [operandPlan])
  | pshReg => exact decode_encode_of_onBytes hm .pshReg rfl (by simp [operandPlan])
  | pop => exact decode_encode_of_onBytes hm .pop rfl (by simp [operandPlan])
  | calLit => exact decode_encode_of_onBytes hm .calLit rfl (by simp [operandPlan])
  | calReg => exact decode_encode_of_onBytes hm .calReg rfl (by simp [operandPlan])
  | ret => exact decode_encode_of_onBytes hm .ret rfl (by simp [operandPlan])
  | unassigned b => exact decode_unassigned (Instr.wf_unassigned_iff.mp hi) rest

/-- Settles O5: the words are fixed, and the decoder evaluates on each. -/
theorem wordsOfTheSpecDecode : Obligations.WordsOfTheSpecDecode := by
  unfold Obligations.WordsOfTheSpecDecode
  decide

/-! ## The bytes an instruction takes -/

/-- What the decoder reads and what it leaves are all the bytes (R76). -/
theorem length_of_decode_eq_ok {m : OpcodeMap} (hm : m.wf) {bs rest : List Byte} {i : Instr}
    (h : decode m bs = .ok (i, rest)) : i.length + rest.length = bs.length := by
  cases bs with
  | nil => cases h
  | cons op operands =>
    rw [decode] at h
    rcases Nat.lt_or_ge operands.length (lengthOfOpcode m op - 1) with hshort | henough
    · rw [(planFor_reads hm op).onBytes_truncated op hshort] at h
      cases h
    · obtain ⟨j, hj, -, hlen⟩ := (planFor_reads hm op).onBytes_ok op henough
      rw [hj] at h
      cases h
      have hpos : 1 ≤ i.length := by cases i <;> simp [Instr.length]
      rw [List.length_drop, List.length_cons]
      omega

/-- A plan reads a first part of the bytes, and the bytes after it make no difference. -/
theorem Plan.exists_read_of_onBytes_eq_ok (p : Plan) {op : Byte} {bs rest : List Byte} {i : Instr}
    (h : p.onBytes op bs = .ok (i, rest)) : ∃ used, bs = used ++ rest ∧ p.onBytes op used = .ok (i, []) := by
  induction p generalizing bs with
  | done j =>
    cases h
    exact ⟨[], rfl, rfl⟩
  | reg k ih | ord k ih =>
    cases bs with
    | nil => cases h
    | cons b bs =>
      obtain ⟨used, rfl, hused⟩ := ih _ h
      exact ⟨b :: used, rfl, hused⟩
  | imm16 k ih =>
    match bs with
    | [] => cases h
    | [_] => cases h
    | hi :: lo :: bs =>
      obtain ⟨used, rfl, hused⟩ := ih _ h
      exact ⟨hi :: lo :: used, rfl, hused⟩

/-- The decoder reads the instruction's own bytes only. -/
theorem exists_read_of_decode_eq_ok {m : OpcodeMap} (hm : m.wf) {bs rest : List Byte} {i : Instr}
    (h : decode m bs = .ok (i, rest)) :
    ∃ used, used.length = i.length ∧ bs = used ++ rest ∧ decode m used = .ok (i, []) := by
  cases bs with
  | nil => cases h
  | cons op operands =>
    obtain ⟨used, rfl, hused⟩ := (planFor m op).exists_read_of_onBytes_eq_ok h
    have hlen := length_of_decode_eq_ok hm (bs := op :: used) hused
    exact ⟨op :: used, hlen.symm, rfl, hused⟩

/-- The fields of an instruction lie within its length (R72, R76). -/
theorem add_le_length_of_mem_layout {i : Instr} {o w : Nat} (h : (o, w) ∈ layout i) : o + w ≤ i.length := by
  have hall : ∀ f ∈ layout i, f.1 + f.2 ≤ i.length := by cases i <;> simp [layout, Instr.length]
  exact hall _ h

end Sys2Proof
end

section
/-! Steps over bytes just placed in memory (20_memory.md section 8, 40_fetch_decode.md R106). -/

namespace Sys2Proof.Machine

open Sys2Proof.Claims

/-- Settles O11: the stream readers and the decoder run the same operand plan over the same bytes. -/
theorem stepRunsTheDecodedInstruction : Obligations.StepRunsTheDecodedInstruction :=
  fun _ _ hc hr hd hf => step_of_decode hc hr hd hf

/-- Settles O12: the plan's fields are read in order, and the first one out of bounds ends the fetch. -/
theorem stepStopsAtTheFirstUnreadableField : Obligations.StepStopsAtTheFirstUnreadableField :=
  fun _ _ hc hr hd _ _ _ _ hsplit hf hn => step_fault_of_decode hc hr hd hsplit hf hn

/-- Settles O14: the start of a step, and of an execute, overwrites the latch. -/
theorem startLatchIsNotObservable : Obligations.StartLatchIsNotObservable := by
  intro s v op hr
  have hready : (s.setStart v).engine = .ready := hr
  have hbegin : beginStep (s.setStart v) = beginStep s := s.setStart_setStart v _
  constructor
  · rw [step_of_ready hready, step_of_ready hr, hbegin]
  · rw [executeOpcode_of_ready op hready, executeOpcode_of_ready op hr, hbegin]

/-- An instruction whose bytes are inside memory has all its fields in bounds. -/
theorem fieldOk_of_length_le {s : State} {a : Word} {i : Instr} (h : a.toNat + i.length ≤ s.cfg.memSize) :
    ∀ f ∈ layout i, FieldOk s a f := by
  rintro ⟨o, w⟩ hf
  have hfield : o + w ≤ i.length := add_le_length_of_mem_layout hf
  rw [FieldOk, BitVec.toNat_add, BitVec.toNat_ofNat]
  omega

/-- Bytes that memory holds from an address on, up to the end of the address space, are the stream there. -/
theorem stream_eq_of_getElem? {s : State} {a : Word} {bs : List Byte} (hmax : a.toNat + bs.length ≤ 65536)
    (h : ∀ j, j < bs.length → bs[j]? = some (s.mem.read (a.toNat + j))) : stream s a bs.length = bs := by
  induction bs generalizing a with
  | nil => rfl
  | cons b rest ih =>
    have hfirst : s.mem.read a.toNat = b := (Option.some.inj (h 0 (Nat.zero_lt_succ _))).symm
    rw [List.length_cons] at hmax h ⊢
    have hnext : (a + 1).toNat = (a.toNat + 1) % 65536 := BitVec.toNat_add a 1
    rw [stream, hfirst, ih (by omega)]
    intro j hj
    have hread := h (j + 1) (by omega)
    rw [List.getElem?_cons_succ] at hread
    rw [hread, hnext, Nat.mod_eq_of_lt (by omega), Nat.add_assoc, Nat.add_comm 1 j]

/-- Bytes in memory at `ip` that decode to an instruction, with nothing left over, run as it. -/
theorem step_of_decode_of_stream {s : State} {bs : List Byte} {i : Instr} (hc : s.cfg.wf) (hr : s.engine = .ready)
    (hs : stream s (s.reg .ip) bs.length = bs) (hd : decode s.cfg.opcodeMap bs = .ok (i, []))
    (hb : (s.reg .ip).toNat + bs.length ≤ s.cfg.memSize) :
    step s = endStep (exec i (afterFetch s bs.length)) := by
  have hlen : i.length = bs.length := length_of_decode_eq_ok (Config.opcodeMap_wf hc) hd
  exact step_of_decode hc hr (by rw [hs, hd]) (fieldOk_of_length_le (hlen ▸ hb))

/-- The two bytes of a held word are the stream at its address. -/
theorem stream_of_holdsWord {s : State} {a v : Word} (hc : s.cfg.wf) (ha : WordOk s a) (h : HoldsWord s a v) :
    stream s a 2 = [hiByte v, loByte v] := by
  obtain ⟨-, hmax, -⟩ := hc
  obtain ⟨hhi, hlo⟩ := h
  refine stream_eq_of_getElem? (bs := [hiByte v, loByte v]) (Nat.le_trans ha hmax) fun j hj => ?_
  match j, hj with
  | 0, _ => exact congrArg some hhi.symm
  | 1, _ => exact congrArg some hlo.symm

/-- Settles O15: the store leaves its two bytes as the stream at their address. -/
theorem storedBytesRunAtTheNextFetch : Obligations.StoredBytesRunAtTheNextFetch := by
  intro s src a i hc hw hr ha hd
  refine ⟨_, exec_movRegMem_ok ha src, ?_⟩
  have hip : ((s.setMem (s.mem.writeWord a.toNat (s.reg src))).setReg .ip a).reg .ip = a := by simp
  exact step_of_decode_of_stream (bs := [hiByte (s.reg src), loByte (s.reg src)]) hc hr
    (hip ▸ stream_of_holdsWord hc ha (holdsWord_writeWord hw ha _)) hd (hip ▸ ha)

/-- The decoder's answer on a word is one on the word's bytes. -/
theorem decode_of_decodeTableWord {nbits w : Nat} {i : Instr} (h : decodeTableWord nbits w = some i) :
    ∃ rest, decode OpcodeMap.default (tableBytes nbits w) = .ok (i, rest) := by
  unfold decodeTableWord at h
  split at h
  · cases h
    exact ⟨_, ‹_›⟩
  · cases h

theorem length_tableBytes (nbits w : Nat) : (tableBytes nbits w).length = 5 := rfl

/-- Settles O16: the bytes placed at `ip` that the decoder reads are the stream there. -/
theorem placedWordRunsNext : Obligations.PlacedWordRunsNext := by
  intro s nbits w i hw hr hmap hip hmax hword
  have hdefault : OpcodeMap.default.wf := by decide
  obtain ⟨rest, hdecode⟩ := decode_of_decodeTableWord hword
  obtain ⟨used, hlen, hbytes, hd⟩ := exists_read_of_decode_eq_ok hdefault hdecode
  have hle : used.length ≤ 5 := by
    rw [← length_tableBytes nbits w, hbytes, List.length_append]
    exact Nat.le_add_right _ _
  rw [← hlen]
  refine step_of_decode_of_stream ⟨?size, hmax, ?map⟩ hr ?stream ?decode ?inside
  case size => exact Nat.le_trans (by omega) hip
  case map => exact hmap ▸ hdefault
  case decode => exact hmap ▸ hd
  case inside => exact Nat.le_trans (Nat.add_le_add_left hle _) hip
  case stream =>
    refine stream_eq_of_getElem? (Nat.le_trans (Nat.add_le_add_left hle _) (Nat.le_trans hip hmax)) fun j hj => ?_
    rw [← List.getElem?_append_left (l₂ := rest) hj, ← hbytes]
    exact Memory.read_writeBytes hw (s.reg .ip).toNat (tableBytes nbits w) (Nat.lt_of_lt_of_le hj hle) hip

/-- Settles O9: the load reads the word that the store left, since both addresses are the same and in bounds. -/
theorem storedWordIsLoadedBack : Obligations.StoredWordIsLoadedBack := by
  intro s src dst a hw ha
  have hok : WordOk (s.setMem (s.mem.writeWord a.toNat (s.reg src))) a := ha
  refine ⟨_, _, exec_movRegMem_ok ha src, exec_movMemReg_ok hok dst, ?_⟩
  rw [State.reg_setReg, if_pos rfl, wordAt_of_holdsWord (holdsWord_writeWord hw ha _)]

end Sys2Proof.Machine
end

section
/-! The invariant between steps (10_state.md section 3), and what every host command keeps of it and of the
parameters (40_fetch_decode.md R116, R117). -/

namespace Sys2Proof.Machine

open Sys2Proof.Claims

/-! ## Construction -/

/-- Construction answers an initial state with legal parameters and a canonical memory, or a refusal. -/
theorem construct_eq_next {m : OpcodeMap} {image : List Byte} {s : State} (h : construct m image = .next s) :
    ∃ cfg mem, s = State.initial cfg mem ∧ cfg.wf ∧ Memory.wf cfg.memSize mem := by
  unfold construct at h
  split at h
  · cases h
  · rename_i hlen
    obtain ⟨hmin, hmax⟩ := not_or.mp hlen
    split at h
    · rename_i hm
      cases h
      exact ⟨_, _, rfl, ⟨Nat.le_of_not_lt hmin, Nat.le_of_not_lt hmax, hm⟩, Memory.ofBytes_wf image⟩
    · cases h

theorem ofBytes_replicate_zero (a n : Nat) : Memory.ofBytes a (List.replicate n 0) = [] := by
  induction n generalizing a with
  | zero => rfl
  | succ n ih => rw [List.replicate_succ, Memory.ofBytes, if_pos rfl, ih]

/-- Settles O39: the image has the length of the default memory, and none of its bytes is listed. -/
theorem resetIsConstructionFromZeros : Obligations.ResetIsConstructionFromZeros := by
  have hlen : (List.replicate 65536 (0 : Byte)).length = 65536 := List.length_replicate
  unfold Obligations.ResetIsConstructionFromZeros
  rw [construct_of_wf (by decide) (by omega) (by omega), hlen, ofBytes_replicate_zero]
  rfl

/-- Settles O40: the default parameters are legal, and the empty list is a canonical memory. -/
theorem resetMeetsTheInvariant : Obligations.ResetMeetsTheInvariant :=
  invariant_initial (by decide) ⟨List.Pairwise.nil, List.forall_mem_nil _⟩

/-! ## The invariant over steps -/

theorem Goes.invariant {s t : State} (h : Goes s t) (hs : Invariant s) : Invariant t := by
  obtain ⟨hcfg, hmem, hready, hfaulted, hstart⟩ := hs
  refine ⟨h.cfg ▸ hcfg, h.cfg ▸ h.memWf hmem, ?ready, ?faulted, h.instrStart.trans hstart⟩
  case ready => exact fun ht => h.fault.trans (hready (h.engine.symm.trans ht))
  case faulted =>
    intro ht
    rw [h.fault, h.cfg]
    exact hfaulted (h.engine.symm.trans ht)

/-- A step that faults leaves FAULTED with a legal record, whatever the record was. -/
theorem Faults.invariant {s t : State} (h : Faults s t) (hcfg : s.cfg.wf) (hmem : Memory.wf s.cfg.memSize s.mem) :
    Invariant (t.setStart 0) :=
  ⟨h.cfg ▸ hcfg, h.cfg ▸ h.memWf hmem, fun ht => (nomatch h.engine.symm.trans ht), fun _ => h.cfg ▸ h.legal, rfl⟩

/-- The end of a step restores the cleared latch, so a step that goes on changes none of the fields that the
invariant ties together. -/
theorem Goes.endStep {s t : State} (h : Goes (beginStep s) t) (hstart : s.instrStart = 0) :
    Goes s (t.setStart 0) :=
  ⟨h.cfg, hstart.symm, h.engine, h.fault, h.memWf⟩

theorem AnswersFrom.invariant {s : State} {r : Host.Outcome State Fault Refusal} (h : AnswersFrom s r)
    (hs : Invariant s) : Invariant (stateAfter s r) := by
  obtain ⟨hcfg, hmem, -, -, hstart⟩ := id hs
  cases h with
  | goes _ hgoes => exact (hgoes.endStep hstart).invariant hs
  | faults _ hfaults => exact hfaults.invariant hcfg hmem
  | held => exact hs

theorem AnswersFrom.cfg_eq {s : State} {r : Host.Outcome State Fault Refusal} (h : AnswersFrom s r) :
    (stateAfter s r).cfg = s.cfg := by
  cases h with
  | goes _ hgoes => exact hgoes.cfg
  | faults _ hfaults => exact hfaults.cfg
  | held => rfl

/-- From READY the answer is a next state, a fault too. -/
theorem AnswersFrom.eq_next_of_ready {s : State} {r : Host.Outcome State Fault Refusal} (h : AnswersFrom s r)
    (hr : s.engine = .ready) : r = .next (stateAfter s r) := by
  cases h with
  | goes | faults => rfl
  | held hf => cases hr.symm.trans hf

/-- Settles O41, by what a step can answer. -/
theorem stepKeepsTheInvariant : Obligations.StepKeepsTheInvariant := by
  intro s t hs h
  have hanswers : AnswersFrom s (.next t) := h ▸ step_answersFrom s
  exact hanswers.invariant hs

/-! ## Host commands -/

theorem hostWriteMem_of_lt {a : Nat} {s : State} (h : a < s.cfg.memSize) (b : Byte) :
    hostWriteMem a b s = (.done, s.setMem (s.mem.write a b)) := if_pos h

theorem hostWriteMem_of_le {a : Nat} {s : State} (h : s.cfg.memSize ≤ a) (b : Byte) :
    hostWriteMem a b s = (.refused (.hostAddress a), s) := if_neg (Nat.not_lt.mpr h)

theorem hostReadMem_of_lt {a : Nat} {s : State} (h : a < s.cfg.memSize) :
    hostReadMem a s = (.byte (s.mem.read a), s) := if_pos h

theorem hostReadMem_of_le {a : Nat} {s : State} (h : s.cfg.memSize ≤ a) :
    hostReadMem a s = (.refused (.hostAddress a), s) := if_neg (Nat.not_lt.mpr h)

theorem goes_hostWriteMem (a : Nat) (b : Byte) (s : State) : Goes s (hostWriteMem a b s).2 := by
  rcases Nat.lt_or_ge a s.cfg.memSize with ha | ha
  · rw [hostWriteMem_of_lt ha]
    exact ⟨rfl, rfl, rfl, rfl, fun hw => Memory.write_wf hw ha b⟩
  · rw [hostWriteMem_of_le ha]
    exact Goes.refl s

/-- A command other than Construct leaves what a step or an execute answers, or goes on with a register or a byte
of memory written at most. -/
theorem command_answersFrom_or_goes {c : Command} (hc : keepsCore c = true) (s : State) :
    (∃ r, AnswersFrom s r ∧ (command c s).2 = stateAfter s r) ∨ Goes s (command c s).2 := by
  cases c with
  | construct m image => cases hc
  | step => exact .inl ⟨_, step_answersFrom s, rfl⟩
  | execute op => exact .inl ⟨_, executeOpcode_answersFrom op s, rfl⟩
  | writeReg r v => exact .inr (Goes.setReg s r v)
  | writeMem a b => exact .inr (goes_hostWriteMem a b s)
  | readMem a =>
    rw [command, hostReadMem_snd]
    exact .inr (Goes.refl s)
  | readReg | readCounter | readStatus => exact .inr (Goes.refl s)

/-- A core constructed in place of another meets the invariant; a refusal leaves the other as it was. -/
theorem invariant_hostConstruct (m : OpcodeMap) (image : List Byte) {s : State} (hs : Invariant s) :
    Invariant (hostConstruct m image s).2 := by
  unfold hostConstruct
  split
  · rename_i t h
    obtain ⟨cfg, mem, rfl, hcfg, hmem⟩ := construct_eq_next h
    exact invariant_initial hcfg hmem
  · exact hs
  · exact hs

/-- Settles O42: Construct gives an initial state or nothing, and every other command answers as a step does or
goes on. -/
theorem commandsKeepTheInvariant : Obligations.CommandsKeepTheInvariant := by
  intro c s hs
  cases hc : keepsCore c with
  | true =>
    rcases command_answersFrom_or_goes hc s with ⟨r, hr, hstate⟩ | hgoes
    · rw [hstate]
      exact hr.invariant hs
    · exact hgoes.invariant hs
  | false =>
    cases c with
    | construct m image => exact invariant_hostConstruct m image hs
    | _ => cases hc

/-- Settles O43, by what a command other than Construct, and a step in READY, can answer. -/
theorem parametersAreFixedAtConstruction : Obligations.ParametersAreFixedAtConstruction := by
  constructor
  · intro c s hc
    rcases command_answersFrom_or_goes hc s with ⟨r, hr, hstate⟩ | hgoes
    · rw [hstate, hr.cfg_eq]
    · exact hgoes.cfg
  · intro s hr
    exact ⟨_, (step_answersFrom s).eq_next_of_ready hr, (step_answersFrom s).cfg_eq⟩

/-- Settles O44: the reads answer at once, WriteReg is one register write, and the memory commands ask first
whether their address is inside memory. -/
theorem hostCommandsReadAndWrite : Obligations.HostCommandsReadAndWrite := by
  intro s r v a b hw
  refine ⟨rfl, rfl, rfl, ?register, fun ha => ?inside, fun ha => ?outside⟩
  case register =>
    have hreg : (s.setReg r v).reg r = v := by simp
    exact ⟨hreg, regsKeptBut_setReg s r v, s.setReg_cnt r v, memKept_setReg s r v, sameControl_setReg s r v⟩
  case inside =>
    rw [command, command, hostReadMem_of_lt ha, hostWriteMem_of_lt ha]
    exact ⟨rfl, rfl, Memory.read_write_self hw a b, fun c hca => Memory.read_write_ne s.mem b hca,
      regsKeptBut_setMem [] s _, s.setMem_cnt _, sameControl_setMem s _⟩
  case outside => exact ⟨hostReadMem_of_le ha, hostWriteMem_of_le ha b⟩

end Sys2Proof.Machine
end

section
/-! The ends of a run (70_reset_and_hazards.md R258): the first state of the run at which an end holds. -/

namespace Sys2Proof.Machine

open Sys2Proof.Claims

/-- `t` is the first state of the run from `s` that is not `away`, it comes within `fuel` steps, and it is `good`. -/
def EndsFirst (away good : State → Prop) (fuel : Nat) (s t : State) : Prop :=
  ∃ n, n ≤ fuel ∧ runSteps n s = t ∧ (∀ k, k < n → away (runSteps k s)) ∧ good t

section

variable {away good : State → Prop}

/-- A run that is not away ends where it is. -/
theorem endsFirst_of_not_away {s t : State} (hs : ¬ away s) (fuel : Nat) :
    EndsFirst away good fuel s t ↔ s = t ∧ good t := by
  constructor
  · rintro ⟨n, -, hrun, haway, ht⟩
    cases n with
    | zero => exact ⟨hrun, ht⟩
    | succ n => exact absurd (haway 0 (Nat.succ_pos n)) hs
  · rintro ⟨rfl, ht⟩
    exact ⟨0, Nat.zero_le _, rfl, fun k hk => absurd hk (Nat.not_lt_zero k), ht⟩

variable (hgood : ∀ u, good u → ¬ away u)
include hgood

/-- With no step left a run does not end away. -/
theorem not_endsFirst_zero {s t : State} (hs : away s) : ¬ EndsFirst away good 0 s t := by
  rintro ⟨n, hn, hrun, -, ht⟩
  obtain rfl := Nat.le_zero.mp hn
  cases hrun
  exact hgood _ ht hs

/-- A run that is away goes on with the state after one step. -/
theorem endsFirst_succ {s t : State} (hs : away s) (fuel : Nat) :
    EndsFirst away good (fuel + 1) s t ↔ EndsFirst away good fuel (stateAfter s (step s)) t := by
  constructor
  · rintro ⟨n, hn, hrun, haway, ht⟩
    cases n with
    | zero =>
      cases hrun
      exact absurd hs (hgood _ ht)
    | succ n => exact ⟨n, Nat.le_of_succ_le_succ hn, hrun, fun k hk => haway (k + 1) (Nat.succ_lt_succ hk), ht⟩
  · rintro ⟨n, hn, hrun, haway, ht⟩
    refine ⟨n + 1, Nat.succ_le_succ hn, hrun, fun k hk => ?_, ht⟩
    cases k with
    | zero => exact hs
    | succ k => exact haway k (Nat.lt_of_succ_lt_succ hk)

/-- A run that stays where it is not away, does not end away, and goes on by steps, gives the end `mk t` exactly
when it ends first at `t`. -/
theorem run_eq_iff_endsFirst {run : Nat → State → RunEnd} {mk : State → RunEnd}
    (hstay : ∀ fuel s t, ¬ away s → (run fuel s = mk t ↔ s = t ∧ good t))
    (hzero : ∀ s t, away s → run 0 s ≠ mk t)
    (hsucc : ∀ fuel s, away s → run (fuel + 1) s = run fuel (stateAfter s (step s)))
    (fuel : Nat) (s t : State) : run fuel s = mk t ↔ EndsFirst away good fuel s t := by
  induction fuel generalizing s with
  | zero =>
    by_cases hs : away s
    · exact iff_of_false (hzero s t hs) (not_endsFirst_zero hgood hs)
    · rw [hstay _ _ _ hs, endsFirst_of_not_away hs]
  | succ fuel ih =>
    by_cases hs : away s
    · rw [hsucc fuel s hs, ih, endsFirst_succ hgood hs]
    · rw [hstay _ _ _ hs, endsFirst_of_not_away hs]

end

/-! ## The states of a run -/

def HasFaulted (s : State) : Prop := s.engine = .faulted

def IsReady (s : State) : Prop := s.engine = .ready

def ArrivedAt (stop : Word) (s : State) : Prop := s.engine = .ready ∧ s.reg .ip = stop

def AwayFrom (stop : Word) (s : State) : Prop := s.engine = .ready ∧ s.reg .ip ≠ stop

theorem HasFaulted.not_isReady {s : State} (h : HasFaulted s) : ¬ IsReady s :=
  fun hr => nomatch hr.symm.trans h

theorem hasFaulted_of_not_isReady {s : State} (h : ¬ IsReady s) : HasFaulted s := by
  rw [HasFaulted]
  rw [IsReady] at h
  cases he : s.engine with
  | ready => exact absurd he h
  | faulted => rfl

theorem HasFaulted.not_awayFrom {s : State} (h : HasFaulted s) (stop : Word) : ¬ AwayFrom stop s :=
  fun ⟨hr, _⟩ => h.not_isReady hr

theorem ArrivedAt.not_awayFrom {stop : Word} {s : State} (h : ArrivedAt stop s) : ¬ AwayFrom stop s :=
  fun ⟨_, hne⟩ => hne h.right

theorem HasFaulted.not_arrivedAt {s : State} (h : HasFaulted s) (stop : Word) : ¬ ArrivedAt stop s :=
  fun ⟨hr, _⟩ => h.not_isReady hr

/-- A run to a stop address that is not away from it has faulted or arrived. -/
theorem hasFaulted_or_arrivedAt_of_not_awayFrom {stop : Word} {s : State} (h : ¬ AwayFrom stop s) :
    HasFaulted s ∨ ArrivedAt stop s := by
  by_cases hr : IsReady s
  · exact .inr ⟨hr, by_contra fun hip => h ⟨hr, hip⟩⟩
  · exact .inl (hasFaulted_of_not_isReady hr)

/-! ## To a stop address -/

theorem runUntil_of_hasFaulted {s : State} (h : HasFaulted s) (stop : Word) (fuel : Nat) :
    runUntil stop fuel s = .faulted s := by
  rw [HasFaulted] at h
  cases fuel <;> rw [runUntil, h]

theorem runUntil_of_arrivedAt {stop : Word} {s : State} (h : ArrivedAt stop s) (fuel : Nat) :
    runUntil stop fuel s = .reached s := by
  obtain ⟨hr, hip⟩ := h
  cases fuel <;> simp only [runUntil, hr, if_pos hip]

theorem runUntil_zero_of_awayFrom {stop : Word} {s : State} (h : AwayFrom stop s) :
    runUntil stop 0 s = .unfinished s := by
  obtain ⟨hr, hip⟩ := h
  rw [runUntil, hr]
  exact if_neg hip

theorem runUntil_succ_of_awayFrom {stop : Word} {s : State} (h : AwayFrom stop s) (fuel : Nat) :
    runUntil stop (fuel + 1) s = runUntil stop fuel (stateAfter s (step s)) := by
  obtain ⟨hr, hip⟩ := h
  rw [runUntil, hr, (step_answersFrom s).eq_next_of_ready hr]
  exact if_neg hip

theorem runUntil_eq_reached_iff (stop : Word) (fuel : Nat) (s t : State) :
    runUntil stop fuel s = .reached t ↔ EndsFirst (AwayFrom stop) (ArrivedAt stop) fuel s t := by
  refine run_eq_iff_endsFirst (fun _ h => h.not_awayFrom) (fun fuel s t hs => ?stay) (fun s t hs => ?zero)
    (fun fuel s hs => runUntil_succ_of_awayFrom hs fuel) fuel s t
  case stay =>
    rcases hasFaulted_or_arrivedAt_of_not_awayFrom hs with h | h
    · rw [runUntil_of_hasFaulted h]
      exact iff_of_false nofun fun ⟨hst, ht⟩ => h.not_arrivedAt stop (hst ▸ ht)
    · rw [runUntil_of_arrivedAt h, RunEnd.reached.injEq]
      exact (and_iff_left_of_imp fun hst => hst ▸ h).symm
  case zero =>
    rw [runUntil_zero_of_awayFrom hs]
    nofun

theorem runUntil_eq_faulted_iff (stop : Word) (fuel : Nat) (s t : State) :
    runUntil stop fuel s = .faulted t ↔ EndsFirst (AwayFrom stop) HasFaulted fuel s t := by
  refine run_eq_iff_endsFirst (fun _ h => h.not_awayFrom stop) (fun fuel s t hs => ?stay) (fun s t hs => ?zero)
    (fun fuel s hs => runUntil_succ_of_awayFrom hs fuel) fuel s t
  case stay =>
    rcases hasFaulted_or_arrivedAt_of_not_awayFrom hs with h | h
    · rw [runUntil_of_hasFaulted h, RunEnd.faulted.injEq]
      exact (and_iff_left_of_imp fun hst => hst ▸ h).symm
    · rw [runUntil_of_arrivedAt h]
      exact iff_of_false nofun fun ⟨hst, ht⟩ => ht.not_arrivedAt stop (hst ▸ h)
  case zero =>
    rw [runUntil_zero_of_awayFrom hs]
    nofun

/-! ## To the first fault -/

theorem runToFault_of_hasFaulted {s : State} (h : HasFaulted s) (fuel : Nat) : runToFault fuel s = .faulted s := by
  rw [HasFaulted] at h
  cases fuel <;> rw [runToFault, h]

theorem runToFault_zero_of_isReady {s : State} (h : IsReady s) : runToFault 0 s = .unfinished s := by
  rw [IsReady] at h
  rw [runToFault, h]

theorem runToFault_succ_of_isReady {s : State} (h : IsReady s) (fuel : Nat) :
    runToFault (fuel + 1) s = runToFault fuel (stateAfter s (step s)) := by
  rw [IsReady] at h
  rw [runToFault, h, (step_answersFrom s).eq_next_of_ready h]
  rfl

theorem runToFault_eq_faulted_iff (fuel : Nat) (s t : State) :
    runToFault fuel s = .faulted t ↔ EndsFirst IsReady HasFaulted fuel s t := by
  refine run_eq_iff_endsFirst (fun _ h => h.not_isReady) (fun fuel s t hs => ?stay) (fun s t hs => ?zero)
    (fun fuel s hs => runToFault_succ_of_isReady hs fuel) fuel s t
  case stay =>
    have h : HasFaulted s := hasFaulted_of_not_isReady hs
    rw [runToFault_of_hasFaulted h, RunEnd.faulted.injEq]
    exact (and_iff_left_of_imp fun hst => hst ▸ h).symm
  case zero =>
    rw [runToFault_zero_of_isReady hs]
    nofun

/-- Settles O45: each run ends at the first state of its steps that is not away from its ends. -/
theorem runsEndAsDefined : Obligations.RunsEndAsDefined :=
  fun stop fuel s t => ⟨runUntil_eq_reached_iff stop fuel s t, runUntil_eq_faulted_iff stop fuel s t,
    runToFault_eq_faulted_iff fuel s t⟩

end Sys2Proof.Machine
end

section
/-! What an operation leaves, fault or not: a property of the state that every write of the operation keeps holds
of the state it leaves (60_exceptions.md R222). -/

namespace Sys2Proof.Machine

/-- The state a result leaves, whether it goes on or has faulted. -/
def Res.final {α : Type} : Res α → State
  | .ok _ t => t
  | .faulted t => t

theorem Res.toOutcome_eq_next_final (r : Res Unit) : r.toOutcome = .next r.final := by
  cases r <;> rfl

/-- The next state of an instruction is what its operations leave. -/
theorem eq_final_of_exec {i : Instr} {s t : State} {r : Res Unit} (hr : exec i s = r.toOutcome)
    (h : exec i s = .next t) : t = r.final := by
  rw [hr, Res.toOutcome_eq_next_final] at h
  exact (Host.Outcome.next.inj h).symm

/-- A word access of kind `k` that is out of bounds keeps `P`. -/
def KeptByAccessFault (k : AccessKind) (P : State → Prop) : Prop :=
  ∀ (s : State) (a : Word), ¬ s.inBounds a 2 → P s → P (s.takeFault (.invalidAddress a 2 k))

/-- A register write keeps `P`, whichever the register. -/
def KeptBySetReg (P : State → Prop) : Prop := ∀ (s : State) (r : Reg) (v : Word), P s → P (s.setReg r v)

/-- A write of the counter keeps `P`. -/
def KeptBySetCnt (P : State → Prop) : Prop := ∀ (s : State) (v : Word), P s → P (s.setCnt v)

/-- A change of memory keeps `P`. -/
def KeptBySetMem (P : State → Prop) : Prop := ∀ (s : State) (m : Memory), P s → P (s.setMem m)

section

variable {P : State → Prop} {s : State}

theorem Res.final_bind {α β : Type} {r : Res α} {k : α → State → Res β} (hr : P r.final)
    (hk : ∀ a t, P t → P (k a t).final) : P (r.bind k).final := by
  cases r with
  | ok a t => exact hk a t hr
  | faulted t => exact hr

/-! ## Accesses -/

theorem final_read16 {k : AccessKind} (hfault : KeptByAccessFault k P) (a : Word) (hs : P s) :
    P (read16 k a s).final := by
  by_cases h : s.inBounds a 2
  · rw [read16_ok h]
    exact hs
  · rw [read16_fault h]
    exact hfault s a h hs

theorem final_write16 (hmem : KeptBySetMem P) (hfault : KeptByAccessFault .write P) (a v : Word) (hs : P s) :
    P (write16 a v s).final := by
  by_cases h : s.inBounds a 2
  · rw [write16_ok h]
    exact hmem s _ hs
  · rw [write16_fault h]
    exact hfault s a h hs

theorem final_readOrdinal (hfault : ∀ (s : State) (n : Byte), P s → P (s.takeFault (.unknownRegister n)))
    (n : Byte) (hs : P s) : P (readOrdinal n s).final := by
  by_cases h : 12 ≤ n.toNat
  · rw [readOrdinal_fault h]
    exact hfault s n hs
  · obtain ⟨r, -, hr⟩ := Reg.ofOrdinal_of_lt (Nat.lt_of_not_le h)
    rw [readOrdinal_ok r hr.symm]
    exact hs

/-- ADD_REG_REG reads two ordinals and writes `acc`, and keeps what these keep. -/
theorem of_exec_addRegReg (hfault : ∀ (s : State) (n : Byte), P s → P (s.takeFault (.unknownRegister n)))
    (hacc : ∀ (s : State) (v : Word), P s → P (s.setReg .acc v)) {n1 n2 : Byte} {t : State}
    (h : exec (.addRegReg n1 n2) s = .next t) (hs : P s) : P t := by
  rw [eq_final_of_exec (exec_addRegReg n1 n2 s) h]
  exact Res.final_bind (final_readOrdinal hfault n1 hs) fun _ _ hu =>
    Res.final_bind (final_readOrdinal hfault n2 hu) fun _ w hw => hacc w _ hw

/-! ## Pushes -/

/-- A push writes memory first, and `sp` and `cnt` only if that has not faulted. -/
theorem final_push (hmem : KeptBySetMem P) (hfault : KeptByAccessFault .write P)
    (hmove : ∀ t, P t → P ((t.setReg .sp (t.reg .sp - 2)).setCnt (t.cnt + 2))) (v : Word) (hs : P s) :
    P (push v s).final :=
  Res.final_bind (final_write16 hmem hfault _ v hs) fun _ t ht => hmove t ht

theorem final_pushWords (hpush : ∀ (v : Word) (t : State), P t → P (push v t).final) (vs : List Word) (hs : P s) :
    P (pushWords vs s).final := by
  induction vs generalizing s with
  | nil => exact hs
  | cons v rest ih => exact Res.final_bind (hpush v s hs) fun _ _ ht => ih ht

theorem final_pushState (hpush : ∀ (v : Word) (t : State), P t → P (push v t).final)
    (hbase : ∀ t, P t → P ((t.setReg .fp (t.reg .sp)).setCnt 0)) (hs : P s) : P (pushState s).final := by
  rw [pushState_eq]
  exact Res.final_bind (final_pushWords hpush _ hs) fun _ t ht => hbase t ht

/-! ## Pops -/

/-- A pop moves `sp` and `cnt` first, and then reads. -/
theorem final_pop (hfault : KeptByAccessFault .read P) (hmove : P (beforePopRead s)) : P (pop s).final :=
  final_read16 hfault _ hmove

variable (hreg : KeptBySetReg P) (hcnt : KeptBySetCnt P) (hfault : KeptByAccessFault .read P)
include hreg hcnt hfault

theorem final_pop_of_kept (hs : P s) : P (pop s).final :=
  final_pop hfault (hcnt _ _ (hreg s _ _ hs))

theorem final_popRegs (rs : List Reg) (hs : P s) : P (popRegs rs s).final := by
  induction rs generalizing s with
  | nil => exact hs
  | cons r rest ih =>
    exact Res.final_bind (final_pop_of_kept hreg hcnt hfault hs) fun v t ht => ih (hreg t r v ht)

theorem final_dropWords (n : Nat) (hs : P s) : P (dropWords n s).final := by
  induction n generalizing s with
  | zero => exact hs
  | succ n ih => exact Res.final_bind (final_pop_of_kept hreg hcnt hfault hs) fun _ _ ht => ih ht

theorem final_popState (hs : P s) : P (popState s).final :=
  Res.final_bind (final_pop_of_kept hreg hcnt hfault (hreg s _ _ hs)) fun w t ht =>
    Res.final_bind (final_popRegs hreg hcnt hfault _ (hcnt t w ht)) fun _ _ hu =>
      Res.final_bind (final_pop_of_kept hreg hcnt hfault hu) fun _ _ hv =>
        Res.final_bind (final_dropWords hreg hcnt hfault _ hv) fun _ x hx => hreg x _ _ hx

end

end Sys2Proof.Machine
end

section
/-! Frames and fault causes over all instructions: what changes memory (20_memory.md R52), what changes `cnt`
(10_state.md R28), what keeps `fp = sp + cnt` (44_stack.md R177), and which faults an instruction raises
(60_exceptions.md R221). -/

namespace Sys2Proof.Machine

open Sys2Proof.Claims

/-! ## Memory -/

/-- The memory is `m`. -/
def HasMem (m : Memory) (s : State) : Prop := s.mem = m

theorem memKept_of_hasMem {s t : State} (h : HasMem s.mem t) : MemKept s t := fun b => congrArg (·.read b) h

/-- Settles O10: such an instruction writes registers and the counter only, and may fault. -/
theorem onlyStoresChangeMemory : Obligations.OnlyStoresChangeMemory := by
  intro i s t h hkind
  have hs : HasMem s.mem s := rfl
  have hfault : KeptByAccessFault .read (HasMem s.mem) := fun _ _ _ hu => hu
  have hreg : KeptBySetReg (HasMem s.mem) := fun _ _ _ hu => hu
  have hcnt : KeptBySetCnt (HasMem s.mem) := fun _ _ hu => hu
  cases i with
  | movLitReg | movRegReg | unassigned =>
    cases h
    exact fun _ => rfl
  | jmpNotEq value address =>
    rw [exec_jmpNotEq_eq_setReg] at h
    cases h
    exact memKept_setReg s .ip _
  | movMemReg a dst =>
    rw [eq_final_of_exec (exec_movMemReg a dst s) h]
    exact memKept_of_hasMem (Res.final_bind (final_read16 hfault a hs) fun v u hu => hreg u dst v hu)
  | addRegReg n1 n2 =>
    exact memKept_of_hasMem (of_exec_addRegReg (P := HasMem s.mem) (fun _ _ hu => hu) (hreg · .acc) h hs)
  | pop dst =>
    rw [eq_final_of_exec (exec_pop dst s) h]
    exact memKept_of_hasMem
      (Res.final_bind (final_pop_of_kept hreg hcnt hfault hs) fun v u hu => hreg u dst v hu)
  | ret =>
    rw [eq_final_of_exec (exec_ret s) h]
    exact memKept_of_hasMem (final_popState hreg hcnt hfault hs)
  | movRegMem | pshLit | pshReg | calLit | calReg => exact absurd rfl hkind

/-! ## The counter -/

/-- The counter is `c`. -/
def HasCnt (c : Word) (s : State) : Prop := s.cnt = c

/-- Settles O33: such an instruction writes registers and memory only, and may fault. -/
theorem counterChangesOnlyOnTheStack : Obligations.CounterChangesOnlyOnTheStack := by
  intro i s t h hstack
  have hs : HasCnt s.cnt s := rfl
  have hfault : ∀ k, KeptByAccessFault k (HasCnt s.cnt) := fun _ _ _ _ hu => hu
  have hreg : KeptBySetReg (HasCnt s.cnt) := fun _ _ _ hu => hu
  have hmem : KeptBySetMem (HasCnt s.cnt) := fun _ _ hu => hu
  cases i with
  | movLitReg | movRegReg | unassigned =>
    cases h
    rfl
  | jmpNotEq value address =>
    rw [exec_jmpNotEq_eq_setReg] at h
    cases h
    exact s.setReg_cnt .ip _
  | movRegMem src a =>
    rw [eq_final_of_exec (exec_movRegMem src a s) h]
    exact final_write16 hmem (hfault .write) a (s.reg src) hs
  | movMemReg a dst =>
    rw [eq_final_of_exec (exec_movMemReg a dst s) h]
    exact Res.final_bind (P := HasCnt s.cnt) (final_read16 (hfault .read) a hs) fun v u hu => hreg u dst v hu
  | addRegReg n1 n2 =>
    exact of_exec_addRegReg (P := HasCnt s.cnt) (fun _ _ hu => hu) (hreg · .acc) h hs
  | pshLit | pshReg | pop | calLit | calReg | ret => cases hstack

/-! ## The frame base -/

/-- `fp = sp +16 cnt` (R177). -/
def FrameBased (s : State) : Prop := s.reg .fp = s.reg .sp + s.cnt

theorem frameBased_keptByAccessFault (k : AccessKind) : KeptByAccessFault k FrameBased := fun _ _ _ h => h

theorem frameBased_keptBySetMem : KeptBySetMem FrameBased := fun _ _ h => h

theorem FrameBased.setReg {s : State} (h : FrameBased s) {r : Reg} (hsp : r ≠ .sp) (hfp : r ≠ .fp) (v : Word) :
    FrameBased (s.setReg r v) := by
  rw [FrameBased, State.reg_setReg, if_neg hfp.symm, State.reg_setReg, if_neg hsp.symm, State.setReg_cnt]
  exact h

/-- A push moves `sp` and `cnt` against each other. -/
theorem FrameBased.push {s : State} (h : FrameBased s) (v : Word) : FrameBased (push v s).final := by
  refine final_push frameBased_keptBySetMem (frameBased_keptByAccessFault .write) (fun t ht => ?_) v h
  rw [FrameBased] at ht ⊢
  simp only [State.reg_setCnt, State.reg_setReg, State.setCnt_cnt, reduceCtorEq, if_true, if_false, ht]
  bv_omega

/-- A pop moves them back, before it reads. -/
theorem FrameBased.pop {s : State} (h : FrameBased s) : FrameBased (pop s).final := by
  refine final_pop (frameBased_keptByAccessFault .read) ?_
  rw [FrameBased] at h
  rw [FrameBased, reg_sp_beforePopRead, cnt_beforePopRead, regsKeptBut_beforePopRead s .fp (by decide), h]
  bv_omega

/-- A saved frame starts afresh with `fp = sp` and `cnt = 0` (R190). -/
theorem FrameBased.pushState {s : State} (h : FrameBased s) : FrameBased (pushState s).final := by
  refine final_pushState (fun v _ ht => ht.push v) (fun t _ => ?_) h
  simp [FrameBased]

theorem frameBased_initial (cfg : Config) (mem : Memory) : FrameBased (State.initial cfg mem) := by
  rw [FrameBased, State.reg_fp_initial, State.reg_sp_initial]
  exact (BitVec.add_zero _).symm

/-- The register an instruction's operand writes is neither `sp` nor `fp`. -/
theorem ne_of_not_writesStackPointer {d : Reg} (h : (d == .sp || d == .fp) = false) : d ≠ .sp ∧ d ≠ .fp := by
  simpa using h

/-- Settles O32: construction and a saved frame set `fp` to `sp` with `cnt` 0, pushes and pops move `sp` and `cnt`
against each other, and the other writes leave all three. -/
theorem frameBaseIsSpPlusCnt : Obligations.FrameBaseIsSpPlusCnt := by
  constructor
  · intro m image s h
    obtain ⟨cfg, mem, rfl, -⟩ := construct_eq_next h
    exact frameBased_initial cfg mem
  intro i s t hret hwrites h (hs : FrameBased s)
  show FrameBased t
  cases i with
  | movLitReg literal dst | movRegReg src dst =>
    obtain ⟨hsp, hfp⟩ := ne_of_not_writesStackPointer hwrites
    cases h
    exact hs.setReg hsp hfp _
  | jmpNotEq value address =>
    rw [exec_jmpNotEq_eq_setReg] at h
    cases h
    exact hs.setReg (by decide) (by decide) _
  | unassigned op =>
    cases h
    exact hs
  | movRegMem src a =>
    rw [eq_final_of_exec (exec_movRegMem src a s) h]
    exact final_write16 frameBased_keptBySetMem (frameBased_keptByAccessFault .write) _ _ hs
  | movMemReg a dst =>
    obtain ⟨hsp, hfp⟩ := ne_of_not_writesStackPointer hwrites
    rw [eq_final_of_exec (exec_movMemReg a dst s) h]
    exact Res.final_bind (final_read16 (frameBased_keptByAccessFault .read) a hs) fun v _ hu => hu.setReg hsp hfp v
  | addRegReg n1 n2 =>
    exact of_exec_addRegReg (fun _ _ hu => hu) (fun _ v hu => hu.setReg (by decide) (by decide) v) h hs
  | pshLit value =>
    rw [eq_final_of_exec (exec_pshLit value s) h]
    exact hs.push value
  | pshReg src =>
    rw [eq_final_of_exec (exec_pshReg src s) h]
    exact hs.push (s.reg src)
  | pop dst =>
    obtain ⟨hsp, hfp⟩ := ne_of_not_writesStackPointer hwrites
    rw [eq_final_of_exec (exec_pop dst s) h]
    exact Res.final_bind hs.pop fun v _ hu => hu.setReg hsp hfp v
  | calLit a =>
    rw [eq_final_of_exec (exec_calLit a s) h]
    exact Res.final_bind hs.pushState fun _ _ hu => hu.setReg (by decide) (by decide) _
  | calReg src =>
    rw [eq_final_of_exec (exec_calReg src s) h]
    exact Res.final_bind hs.pushState fun _ _ hu => hu.setReg (by decide) (by decide) _
  | ret => exact absurd rfl hret

/-! ## Fault causes -/

/-- In a memory of `size` bytes, and if FAULTED then by a word access of kind `k` out of bounds (R221). -/
def FaultsOnlyBy (k : AccessKind) (size : Nat) (s : State) : Prop :=
  s.cfg.memSize = size ∧ (s.engine = .faulted →
    s.fault.cause = 1 ∧ s.fault.kind = k.code ∧ s.fault.width = 2 ∧ size < s.fault.addr.toNat + 2)

theorem faultsOnlyBy_of_ready {s : State} (h : s.engine = .ready) (k : AccessKind) :
    FaultsOnlyBy k s.cfg.memSize s :=
  ⟨rfl, fun hf => nomatch h.symm.trans hf⟩

theorem faultsOnlyBy_keptByAccessFault (k : AccessKind) (size : Nat) :
    KeptByAccessFault k (FaultsOnlyBy k size) := by
  intro s a hout hs
  obtain ⟨rfl, -⟩ := hs
  exact ⟨rfl, fun _ => ⟨rfl, rfl, rfl, Nat.not_le.mp hout⟩⟩

theorem faultsOnlyBy_keptBySetReg (k : AccessKind) (size : Nat) : KeptBySetReg (FaultsOnlyBy k size) :=
  fun _ _ _ h => h

theorem faultsOnlyBy_keptBySetCnt (k : AccessKind) (size : Nat) : KeptBySetCnt (FaultsOnlyBy k size) :=
  fun _ _ h => h

theorem faultsOnlyBy_keptBySetMem (k : AccessKind) (size : Nat) : KeptBySetMem (FaultsOnlyBy k size) :=
  fun _ _ h => h

theorem FaultsOnlyBy.push {s : State} {size : Nat} (h : FaultsOnlyBy .write size s) (v : Word) :
    FaultsOnlyBy .write size (push v s).final :=
  final_push (faultsOnlyBy_keptBySetMem _ _) (faultsOnlyBy_keptByAccessFault _ _) (fun _ ht => ht) v h

theorem FaultsOnlyBy.pushState {s : State} {size : Nat} (h : FaultsOnlyBy .write size s) :
    FaultsOnlyBy .write size (pushState s).final :=
  final_pushState (fun v _ ht => ht.push v) (fun _ ht => ht) h

/-- An instruction of the table that faults by accesses of its kind only has the record the table gives it. -/
theorem record_of_faultsOnlyBy {i : Instr} {s t : State} {r : Res Unit} {k : AccessKind}
    (hi : dataFaultKind i = some k.code) (hr : exec i s = r.toOutcome) (h : exec i s = .next t)
    (ht : t.engine = .faulted) (hf : FaultsOnlyBy k s.cfg.memSize r.final) :
    t.fault.cause = 1 ∧ dataFaultKind i = some t.fault.kind ∧ t.fault.width = 2 ∧
      s.cfg.memSize < t.fault.addr.toNat + 2 := by
  rw [← eq_final_of_exec hr h] at hf
  obtain ⟨-, hrecord⟩ := hf
  obtain ⟨hcause, hkind, hwidth, haddr⟩ := hrecord ht
  exact ⟨hcause, by rw [hi, hkind], hwidth, haddr⟩

/-- The record of UnknownRegister names the ordinal (R33, R221). -/
theorem record_of_unknownRegister {s t : State} {n : Byte}
    (h : FaultedFrom s t 2 0 (BitVec.ofNat 16 n.toNat) 0) : t.fault.cause = 2 ∧ t.fault.addr.toNat = n.toNat := by
  rw [FaultedFrom] at h
  subst h
  exact ⟨rfl, (BitVec.toNat_ofNat _ _).trans (Nat.mod_eq_of_lt (Nat.lt_trans n.isLt (by decide)))⟩

theorem record_of_exec_addRegReg {n1 n2 : Byte} {s t : State} (hs : s.engine = .ready)
    (h : exec (.addRegReg n1 n2) s = .next t) (ht : t.engine = .faulted) :
    t.fault.cause = 2 ∧ ((12 ≤ n1.toNat ∧ t.fault.addr.toNat = n1.toNat) ∨
      (n1.toNat < 12 ∧ 12 ≤ n2.toNat ∧ t.fault.addr.toNat = n2.toNat)) := by
  rcases Nat.lt_or_ge n1.toNat 12 with h1 | h1
  · rcases Nat.lt_or_ge n2.toNat 12 with h2 | h2
    · obtain ⟨q1, -, hq1⟩ := Reg.ofOrdinal_of_lt h1
      obtain ⟨q2, -, hq2⟩ := Reg.ofOrdinal_of_lt h2
      rw [exec_addRegReg_ok hq1.symm hq2.symm] at h
      cases h
      cases hs.symm.trans ht
    · obtain ⟨u, hu, hfault⟩ := exec_addRegReg_second_faultedFrom h1 h2 s
      cases h.symm.trans hu
      obtain ⟨hcause, haddr⟩ := record_of_unknownRegister hfault
      exact ⟨hcause, .inr ⟨h1, h2, haddr⟩⟩
  · obtain ⟨u, hu, hfault⟩ := exec_addRegReg_first_faultedFrom h1 n2 s
    cases h.symm.trans hu
    obtain ⟨hcause, haddr⟩ := record_of_unknownRegister hfault
    exact ⟨hcause, .inl ⟨h1, haddr⟩⟩

/-- Settles O37: an instruction that only writes registers stays READY; the storing ones fault by writes and the
loading ones by reads; ADD_REG_REG faults by its ordinals. -/
theorem faultsAreThoseOfTheTable : Obligations.FaultsAreThoseOfTheTable := by
  intro i s t hs h ht
  have hwrite := faultsOnlyBy_of_ready hs .write
  have hread := faultsOnlyBy_of_ready hs .read
  have hreadFault := faultsOnlyBy_keptByAccessFault .read s.cfg.memSize
  have hreg := faultsOnlyBy_keptBySetReg .read s.cfg.memSize
  have hcnt := faultsOnlyBy_keptBySetCnt .read s.cfg.memSize
  cases i with
  | movLitReg | movRegReg | unassigned =>
    cases h
    cases hs.symm.trans ht
  | jmpNotEq value address =>
    rw [exec_jmpNotEq_eq_setReg] at h
    cases h
    cases hs.symm.trans ht
  | addRegReg n1 n2 =>
    obtain ⟨hcause, hordinal⟩ := record_of_exec_addRegReg hs h ht
    exact .inr ⟨hcause, n1, n2, rfl, hordinal⟩
  | movRegMem src a =>
    exact .inl (record_of_faultsOnlyBy rfl (exec_movRegMem src a s) h ht
      (final_write16 (faultsOnlyBy_keptBySetMem _ _) (faultsOnlyBy_keptByAccessFault _ _) a _ hwrite))
  | movMemReg a dst =>
    exact .inl (record_of_faultsOnlyBy rfl (exec_movMemReg a dst s) h ht
      (Res.final_bind (final_read16 hreadFault a hread) fun v u hu => hreg u dst v hu))
  | pshLit value => exact .inl (record_of_faultsOnlyBy rfl (exec_pshLit value s) h ht (hwrite.push value))
  | pshReg src => exact .inl (record_of_faultsOnlyBy rfl (exec_pshReg src s) h ht (hwrite.push (s.reg src)))
  | pop dst =>
    exact .inl (record_of_faultsOnlyBy rfl (exec_pop dst s) h ht
      (Res.final_bind (final_pop_of_kept hreg hcnt hreadFault hread) fun v u hu => hreg u dst v hu))
  | calLit a =>
    exact .inl (record_of_faultsOnlyBy rfl (exec_calLit a s) h ht (Res.final_bind hwrite.pushState fun _ _ hu => hu))
  | calReg src =>
    exact .inl (record_of_faultsOnlyBy rfl (exec_calReg src s) h ht
      (Res.final_bind hwrite.pushState fun _ _ hu => hu))
  | ret =>
    exact .inl (record_of_faultsOnlyBy rfl (exec_ret s) h ht (final_popState hreg hcnt hreadFault hread))

end Sys2Proof.Machine
end

section
/-! The bounds of the stack (44_stack.md section 1): where a push and a pop complete, and where they fault. -/

namespace Sys2Proof.Machine

open Sys2Proof.Claims

/-- A word at the last address of memory or past it is out of bounds. -/
theorem not_wordOk_of_le {s : State} {a : Word} (hc : s.cfg.wf) (h : s.cfg.memSize - 1 ≤ a.toNat) :
    ¬ WordOk s a := by
  obtain ⟨hmin, -⟩ := hc
  rw [WordOk]
  omega

/-- A pop from the initial `sp` of a memory shorter than the address space reads just past its end. -/
theorem toNat_add_two_of_eq_sub_two {size : Nat} {sp : Word} (hmin : 2 ≤ size) (hmax : size < 65536)
    (hsp : sp.toNat = size - 2) : (sp + 2).toNat = size := by
  rw [BitVec.toNat_add, hsp, show (2 : Word).toNat = 2 from rfl]
  omega

/-- Settles O31: a push and a pop by whether their word is in bounds; the last two clauses place the word of a pop
at 0, where `sp` wraps, and at MEM_SIZE. -/
theorem stackBoundsAreThoseOfMemory : Obligations.StackBoundsAreThoseOfMemory := by
  intro s v hc
  obtain ⟨hmin, -⟩ := id hc
  refine ⟨fun h => ?pushed, fun h => ?popped, fun h => push_faultedFrom (not_wordOk_of_le hc h) v,
    fun h => pop_faultedFrom (not_wordOk_of_le hc h), fun hsize hsp => ?wrapped, fun hsize hsp => ?initial⟩
  case pushed =>
    exact ⟨_, push_ok h, by simp, State.setCnt_cnt _ _, sameControl_trans (sameControl_setMem s _)
      (sameControl_trans (sameControl_setReg _ .sp _) (sameControl_setCnt _ _))⟩
  case popped =>
    exact ⟨_, pop_eq_wordAt h, reg_sp_beforePopRead s, cnt_beforePopRead s, memKept_beforePopRead s,
      sameControl_beforePopRead s⟩
  case wrapped =>
    have hzero : s.reg .sp + 2 = 0 := by rw [hsp]; rfl
    have hok : WordOk s (s.reg .sp + 2) := by
      rw [hzero]
      exact hmin
    exact ⟨_, hzero ▸ pop_eq_wordAt hok, hzero ▸ reg_sp_beforePopRead s, cnt_beforePopRead s,
      sameControl_beforePopRead s⟩
  case initial =>
    have hend : (s.reg .sp + 2).toNat = s.cfg.memSize := toNat_add_two_of_eq_sub_two hmin hsize hsp
    have hout : ¬ WordOk s (s.reg .sp + 2) := by
      rw [WordOk, hend]
      omega
    exact ⟨_, pop_fault hout, rfl, hend⟩

end Sys2Proof.Machine
end

section
/-! A call and its return (45_call_return.md section 3): the slots a RET pops are those the call pushed, in the
other order. -/

namespace Sys2Proof.Machine

open Sys2Proof.Claims

/-! ## The call -/

/-- A call that has not faulted had all its pushes in bounds, and has entered its target. -/
theorem callEntered_of_ready {i : Instr} {target : State → Word} {s t : State} (hi : CallsTo i target)
    (hw : Memory.wf s.cfg.memSize s.mem) (h : exec i s = .next t) (ht : t.engine = .ready) :
    (∀ j, j < 10 → WordOk s (pushSlot s j)) ∧ CallEntered (target s) s t := by
  obtain ⟨henters, hfaults⟩ := hi s hw
  by_cases hout : ∃ j, j < 10 ∧ ¬ WordOk s (pushSlot s j)
  · obtain ⟨hj, hjout⟩ := Nat.find_spec hout
    have hbefore : ∀ k, k < Nat.find hout → WordOk s (pushSlot s k) := fun k hk =>
      by_contra fun hk' => Nat.find_min hout hk ⟨Nat.lt_trans hk hj, hk'⟩
    obtain ⟨t', ht', u, -, -, -, -, -, hfault⟩ := hfaults _ hj hbefore hjout
    cases h.symm.trans ht'
    rw [FaultedFrom] at hfault
    rw [hfault] at ht
    cases ht
  · have hok : ∀ j, j < 10 → WordOk s (pushSlot s j) := fun j hj => by_contra fun hj' => hout ⟨j, hj, hj'⟩
    obtain ⟨t', ht', hentered⟩ := henters hok
    cases h.symm.trans ht'
    exact ⟨hok, hentered⟩

/-- A call saves the frame in order of its slots, sets `fp` to the last of them and keeps the parameters. -/
theorem frame_of_call {i : Instr} {s t : State} (hi : (∃ a, i = .calLit a) ∨ ∃ r, i = .calReg r)
    (hw : Memory.wf s.cfg.memSize s.mem) (h : exec i s = .next t) (ht : t.engine = .ready) :
    (∀ j, j < 10 → WordOk s (pushSlot s j)) ∧ t.reg .fp = pushSlot s 10 ∧ FramePushed 10 s t ∧ t.cfg = s.cfg := by
  obtain ⟨target, hcalls⟩ : ∃ target, CallsTo i target := by
    rcases hi with ⟨a, rfl⟩ | ⟨src, rfl⟩
    · exact ⟨_, callsTo_of_exec_eq_pushState (exec_calLit a)⟩
    · exact ⟨_, callsTo_of_exec_eq_pushState (exec_calReg src)⟩
  obtain ⟨hok, -, -, hfp, -, -, hframe, hcfg, -⟩ := callEntered_of_ready hcalls hw h ht
  exact ⟨hok, hfp, hframe, hcfg⟩

/-! ## The slots -/

/-- From the base of a saved frame, the `j`-th pop is at the slot of the push as far from the last. -/
theorem popSlot_eq_pushSlot {s u : State} (hfp : u.reg .fp = pushSlot s 10) {j k : Nat} (hjk : k + j = 10) :
    popSlot u j = pushSlot s k := by
  rw [popSlot, ← twice, hfp, pushSlot_eq, pushSlot_eq, ← hjk, twice_add, ← BitVec.sub_sub, BitVec.sub_add_cancel]

/-- Past the frame, the pops are above the caller's `sp`. -/
theorem popSlot_ten_add {s u : State} (hfp : u.reg .fp = pushSlot s 10) (k : Nat) :
    popSlot u (10 + k) = s.reg .sp + twice k := by
  rw [popSlot_add, popSlot_eq_pushSlot hfp (Nat.zero_add 10), pushSlot_eq, twice_zero]
  exact congrArg (· + twice k) (BitVec.sub_zero _)

/-- The order of restoring is that of saving, reversed, after the frame-size word. -/
theorem frameWords_of_restoreOrder {p : Nat} {r : Reg} (s : State) (h : restoreOrder[p]? = some r) :
    (frameWords s)[8 - p]? = some (s.reg r) := by
  have hp : p < 9 := lt_of_restoreOrder_getElem? h
  interval_cases p <;> cases h <;> rfl

/-! ## Where the return leaves `sp`, `cnt` and `fp` -/

theorem twice_toNat (w : Word) : twice w.toNat = 2 * w := by
  rw [twice, BitVec.ofNat_mul, BitVec.ofNat_toNat, BitVec.setWidth_eq]
  rfl

/-- The pops of a RET are the frame's, the argument count's and the arguments'. -/
theorem popCount_of_frameBase {s u : State} (hfp : u.reg .fp = pushSlot s 10) :
    popCount u = 10 + (1 + (wordAt u (s.reg .sp + 2)).toNat) := by
  rw [popCount, show popSlot u 11 = s.reg .sp + 2 from popSlot_ten_add hfp 1, ← Nat.add_assoc]

theorem popSlot_popCount_of_frameBase {s u : State} (hfp : u.reg .fp = pushSlot s 10) :
    popSlot u (popCount u) = s.reg .sp + 2 + 2 * wordAt u (s.reg .sp + 2) := by
  rw [popCount_of_frameBase hfp, popSlot_ten_add hfp, twice_add, twice_toNat, ← BitVec.add_assoc]
  rfl

/-- The counter comes back less the arguments, the frame-size word being the caller's counter and 20 (R196). -/
theorem frameSize_sub_of_frameBase {s u : State} (hfp : u.reg .fp = pushSlot s 10) (c : Word) :
    c + 20 - BitVec.ofNat 16 (2 * (popCount u - 1)) = c - 2 * wordAt u (s.reg .sp + 2) := by
  have hlater : popCount u - 1 = 10 + (wordAt u (s.reg .sp + 2)).toNat := by
    rw [popCount_of_frameBase hfp]
    omega
  rw [hlater, ← twice, twice_add, twice_toNat, ← BitVec.sub_sub, show twice 10 = 20 from rfl,
    BitVec.add_sub_cancel]

/-- The frame-size word is also how far the base is below the caller's `sp + cnt`. -/
theorem frameBase_add_frameSize (s : State) : pushSlot s 10 + (s.cnt + 20) = s.reg .sp + s.cnt := by
  rw [pushSlot_eq, show twice 10 = 20 from rfl]
  bv_omega

/-! ## The return -/

section

variable {s t u : State} (hfpt : t.reg .fp = pushSlot s 10)
include hfpt

/-- The `j`-th pop reads the word that the push as far from the last has saved. -/
theorem wordAt_popSlot_of_frame (hframe : FramePushed 10 s t)
    (hwords : ∀ j, 1 ≤ j → j ≤ 10 → wordAt u (popSlot u j) = wordAt t (popSlot t j)) {j k : Nat} {w : Word}
    (hj : 1 ≤ j) (hjk : k + j = 10) (hw : (frameWords s)[k]? = some w) : wordAt u (popSlot u j) = w := by
  obtain ⟨hsaved, -⟩ := hframe
  rw [hwords j hj (by omega), popSlot_eq_pushSlot hfpt hjk]
  exact wordAt_of_holdsWord (hsaved k w (by omega) hw)

/-- The pops of the frame are in bounds as its pushes were; so all are, if those past the frame are. -/
theorem wordOk_popSlot_of_frame (hok : ∀ j, j < 10 → WordOk s (pushSlot s j)) (hfp : u.reg .fp = t.reg .fp)
    (hcfg : u.cfg = s.cfg) (habove : ∀ j, 11 ≤ j → j ≤ popCount u → WordOk u (popSlot u j)) {j : Nat}
    (h1 : 1 ≤ j) (hj : j ≤ popCount u) : WordOk u (popSlot u j) := by
  by_cases hframe : j ≤ 10
  · rw [WordOk, hcfg, popSlot_eq_pushSlot (hfp.trans hfpt) (k := 10 - j) (by omega)]
    exact hok (10 - j) (by omega)
  · exact habove j (by omega) hj

end

/-- Settles O34: the RET pops the caller's frame back, and its frame-size word, `cnt + 20`, puts `fp` and `cnt`
where the caller's `sp` and `cnt` had them, less the arguments. -/
theorem returnRestoresTheCaller : Obligations.ReturnRestoresTheCaller := by
  intro s t u i hw _ hi hexec ht hcfg hfp hwords habove
  obtain ⟨hok, hfpt, hframe, hcfgt⟩ := frame_of_call hi hw hexec ht
  have hbase : u.reg .fp = pushSlot s 10 := hfp.trans hfpt
  obtain ⟨-, hret⟩ := retUnwindsTheFrame
  obtain ⟨hcompletes, -⟩ := hret u
  obtain ⟨v, hv, hregs, hsp, hvfp, hcnt, hacc, hmem, hcontrol⟩ := hcompletes fun j =>
    wordOk_popSlot_of_frame hfpt hok hfp (hcfg.trans hcfgt) habove
  have hrestored : ∀ (p : Nat) (r : Reg), restoreOrder[p]? = some r → v.reg r = s.reg r := by
    intro p r hp
    have hp9 : p < 9 := lt_of_restoreOrder_getElem? hp
    rw [hregs p r hp]
    exact wordAt_popSlot_of_frame hfpt hframe hwords (by omega) (by omega) (frameWords_of_restoreOrder s hp)
  have hsize : wordAt u (popSlot u 1) = s.cnt + 20 :=
    wordAt_popSlot_of_frame hfpt hframe hwords (k := 9) (Nat.le_refl 1) rfl rfl
  rw [popSlot_popCount_of_frameBase hbase] at hsp
  rw [hsize, hbase, frameBase_add_frameSize] at hvfp
  rw [hsize, frameSize_sub_of_frameBase hbase] at hcnt
  refine ⟨v, hv, hrestored 0 .ip rfl, fun r hr => ?regs, hvfp, hsp, hcnt, ?drift, fun h => hvfp.trans h.symm,
    hacc, hmem, hcontrol⟩
  case regs =>
    have hsubset : [Reg.r1, .r2, .r3, .r4, .r5, .r6, .r7, .r8] ⊆ restoreOrder := by decide
    obtain ⟨p, hp⟩ := List.mem_iff_getElem?.mp (hsubset hr)
    exact hrestored p r hp
  case drift =>
    rw [hsp, hcnt, hvfp]
    bv_omega

end Sys2Proof.Machine
end
